-- ==== Sys2Proof/Word.lean ====
section
/-! DEFINITION. The two word types of the block: a byte of the input buffer and a 16-bit field
(R5 of 00_scope.md). -/

namespace Sys2Proof

/-- One byte of the input buffer. -/
abbrev Byte := BitVec 8

/-- A 16-bit field: a wide displacement, immediate or address (R5). -/
abbrev Half := BitVec 16

end Sys2Proof
end

