-- ==== Sys2Proof/Config.lean ====
section
/-! DEFINITION. What the spec fixes for the block, and the type of its one open parameter
(R6 of 00_scope.md). The parameter's value belongs to a run and stands in State. -/

namespace Sys2Proof

/-- The values of DISP_SIGN_BY (R6, D11): whose width decides the sign of a displacement. -/
inductive DispSignBy where
  /-- By the displacement field's own width (R74, the default). -/
  | field
  /-- By the instruction's w bit (R74). -/
  | w
deriving DecidableEq, Repr

/-- WIN_MAX: the longest decode window in bytes (R6). -/
def Config.winMax : Nat := 6

/-- The default of DISP_SIGN_BY (R6). DESIGN CHOICE of the spec, D11 (log 3). -/
def Config.dispSignByDefault : DispSignBy := .field

end Sys2Proof
end

