-- ==== Sys2Proof/Syntax.lean ====
section
/-! DEFINITION. The six instructions of the opcode table, the sized fields they carry, and the names
and descriptors their fields resolve to. -/

namespace Sys2Proof

/-- A displacement, immediate or address as the encoding holds it: its size (1 or 2 bytes) and its raw
unsigned value of that many bytes (R23 of 10_state.md). -/
inductive Sized where
  /-- `{size: 1, raw}` -/
  | byte (raw : Byte)
  /-- `{size: 2, raw}` -/
  | half (raw : Half)
deriving DecidableEq, Repr

/-- A displacement field (R73). -/
abbrev Disp := Sized
/-- An immediate field (R75). -/
abbrev Imm := Sized
/-- An accumulator-form address field (R160). -/
abbrev Addr := Sized

/-- The instructions: one constructor per row of spec/opcode_table.json. Flags `w` are false for narrow
(w = 0) and true for wide (w = 1). -/
inductive Instr where
  /-- MOV r/m, reg: form 1 with d = 0 (R101). -/
  | movRmReg (w : Bool) (mod : BitVec 2) (reg rm : BitVec 3) (disp : Option Disp)
  /-- MOV reg, r/m: form 1 with d = 1 (R102). -/
  | movRegRm (w : Bool) (mod : BitVec 2) (reg rm : BitVec 3) (disp : Option Disp)
  /-- MOV reg, imm: form 2 (R120). -/
  | movRegImm (w : Bool) (reg : BitVec 3) (imm : Imm)
  /-- MOV r/m, imm: form 3 (R140). -/
  | movRmImm (w : Bool) (mod : BitVec 2) (rm : BitVec 3) (disp : Option Disp) (imm : Imm)
  /-- MOV AX, [addr]: form 4 with a = 0 (R161). -/
  | movAxMem (w : Bool) (addr : Addr)
  /-- MOV [addr], AX: form 4 with a = 1 (R162). -/
  | movMemAx (w : Bool) (addr : Addr)
deriving DecidableEq, Repr

/-- The four MOV encodings (glossary of 00_scope.md). -/
inductive Form where
  | rmReg
  | immReg
  | immRm
  | accMem
deriving DecidableEq, Repr

/-- One entry of the matcher's ordered table (R65). -/
structure OpcodeEntry where
  mask  : Byte
  value : Byte
  form  : Form
deriving DecidableEq, Repr

/-- The addressing modes (R68). -/
inductive Mode where
  | memory
  | displace8
  | displace16
  | registerDirect
deriving DecidableEq, Repr

/-- The 16 register identifiers (R26 of 10_state.md). They are names: the block holds no register file. -/
inductive Reg where
  | al | cl | dl | bl | ah | ch | dh | bh
  | ax | cx | dx | bx | sp | bp | si | di
deriving DecidableEq, Repr

/-- The base expressions of a memory operand (R71). -/
inductive Base where
  | bxSi | bxDi | bpSi | bpDi | si | di | bp | bx
deriving DecidableEq, Repr

/-- The operand descriptors the block outputs (R24, R71): it names operands and accesses none (R51). -/
inductive Operand where
  /-- `Reg(r)` -/
  | reg (r : Reg)
  /-- `Mem(base, disp)`: the displacement is absent in mode Memory. -/
  | mem (base : Base) (disp : Option Disp)
  /-- `Direct(a)`: an absolute address, the unsigned value of the field that holds it. -/
  | direct (address : Nat)
  /-- `Imm(imm)` -/
  | imm (value : Imm)
deriving DecidableEq, Repr

/-- The instruction record the decode core outputs, one variant per form, each with exactly the fields
of R23. -/
inductive Record where
  /-- `RmReg{d, w, mod, reg, rm, disp, len}` -/
  | rmReg (d w : Bool) (mod : BitVec 2) (reg rm : BitVec 3) (disp : Option Disp) (len : Nat)
  /-- `ImmReg{w, reg, imm, len}` -/
  | immReg (w : Bool) (reg : BitVec 3) (imm : Imm) (len : Nat)
  /-- `ImmRm{w, mod, rm, disp, imm, len}` -/
  | immRm (w : Bool) (mod : BitVec 2) (rm : BitVec 3) (disp : Option Disp) (imm : Imm) (len : Nat)
  /-- `AccMem{a, w, addr, len}` -/
  | accMem (a w : Bool) (addr : Addr) (len : Nat)
deriving DecidableEq, Repr

/-- The error a decode reports, with its payload (R221, R222; payloads are the spec's D6, log 16). -/
inductive DecodeError where
  /-- `TruncatedInput{need, have}`: the form needs `need` bytes and the window holds `avail`. -/
  | truncatedInput (need avail : Nat)
  /-- `UnsupportedOpcode{raw}`: the first byte matches no form. -/
  | unsupportedOpcode (raw : Byte)
deriving DecidableEq, Repr

/-- What the decode core answers (R22). -/
inductive DecodeResult where
  /-- `Ok(I)`, with the instruction the record `I` stands for. -/
  | ok (i : Instr)
  /-- `Err(e)` -/
  | err (e : DecodeError)
  /-- A Bit Cursor read outside the window was reached: refused, never given a value (R46, U1 of
  93_implementation_defined.md). Safe: no window of one byte or more leads here. -/
  | refusedRead
deriving DecidableEq, Repr

end Sys2Proof
end

