-- ==== Sys2Proof/Machine/Fields.lean ====
section
/-! DEFINITION. The field extractors and resolvers of the decode core: the Bit Cursor, byte order, the
Addressing Mode Resolver, the Register Namer, displacement length and the record lengths. All are pure
functions of raw fields (R20 of 10_state.md). -/

namespace Sys2Proof

/-! ## Bit Cursor and byte order -/

/-- Stream bit `i` of a byte sequence, most significant bit of each byte first (R7 of 00_scope.md).
There is none beyond the last byte (R46). -/
def streamBit (b : List Byte) (i : Nat) : Option Bool :=
  (b[i / 8]?).map fun v => v.getLsbD (7 - i % 8)

/-- The Bit Cursor's unsigned extraction `field(o, n)` (R7): bits `o` to `o+n-1` of the stream, the
first one the most significant. A read outside the sequence has no value (R46). -/
def cursorField (b : List Byte) (o : Nat) : Nat → Option Nat
  | 0 => some 0
  | n + 1 =>
    match cursorField b o n, streamBit b (o + n) with
    | some v, some s => some (2 * v + s.toNat)
    | _, _ => none

/-- `le16(lo, hi) = hi·256 + lo`: the 16-bit value whose low byte is `lo` and high byte `hi` (R8, R42; C4; log 10). -/
def le16 (lo hi : Byte) : Half := BitVec.ofNat 16 (hi.toNat * 256 + lo.toNat)

/-- The low-order byte of a 16-bit value, stored first (R42). -/
def loByte (h : Half) : Byte := h.extractLsb' 0 8

/-- The high-order byte of a 16-bit value, stored second (R42). -/
def hiByte (h : Half) : Byte := h.extractLsb' 8 8

/-- `mod = b_1[7:6]` (R62, R63). -/
def modField (b1 : Byte) : BitVec 2 := b1.extractLsb' 6 2

/-- `reg = b_1[5:3]` (R62). -/
def regField (b1 : Byte) : BitVec 3 := b1.extractLsb' 3 3

/-- `rm = b_1[2:0]` (R62, R63). -/
def rmField (b1 : Byte) : BitVec 3 := b1.extractLsb' 0 3

/-- `d = b_0[1]` of form 1 and `a = b_0[1]` of form 4 (R61). -/
def directionBit (b0 : Byte) : Bool := b0.getLsbD 1

/-- `w = b_0[0]` of forms 1, 3 and 4 (R61). -/
def wideBit (b0 : Byte) : Bool := b0.getLsbD 0

/-- `w = b_0[3]` of form 2 (R61). -/
def wideBitImmReg (b0 : Byte) : Bool := b0.getLsbD 3

/-- `reg = b_0[2:0]` of form 2 (R61). -/
def regFieldImmReg (b0 : Byte) : BitVec 3 := b0.extractLsb' 0 3

/-! ## Sized fields -/

/-- The size of a field in bytes (R23). -/
def Sized.size : Sized → Nat
  | .byte _ => 1
  | .half _ => 2

/-- The raw unsigned value of a field (R23). -/
def Sized.raw : Sized → Nat
  | .byte b => b.toNat
  | .half h => h.toNat

/-- The two's-complement value of a field by its own width: `signed_8` or `signed_16` (R8). -/
def Sized.signed : Sized → Int
  | .byte b => b.toInt
  | .half h => h.toInt

/-- The size of an optional field: an absent field holds no byte (R23, D12). -/
def sizeOrZero : Option Sized → Nat
  | none => 0
  | some f => f.size

/-! ## Resolvers -/

/-- The Addressing Mode Resolver `mode(mod)` (R68). -/
def modeOf (mod : BitVec 2) : Mode :=
  if mod = 0b00#2 then .memory
  else if mod = 0b01#2 then .displace8
  else if mod = 0b10#2 then .displace16
  else .registerDirect

/-- The Register Namer `regname(code, w)` (R69). Three entries come from the source's examples; the
others are PRESUMED, the 8086 register encoding the spec supplies from general knowledge (G1, log 11). -/
def regName (code : BitVec 3) (w : Bool) : Reg :=
  match code.toNat, w with
  | 0, false => .al | 0, true => .ax
  | 1, false => .cl | 1, true => .cx
  | 2, false => .dl | 2, true => .dx
  | 3, false => .bl | 3, true => .bx
  | 4, false => .ah | 4, true => .sp
  | 5, false => .ch | 5, true => .bp
  | 6, false => .dh | 6, true => .si
  | _, false => .bh | _, true => .di

/-- The base expression of an rm code (R71). The order of the list and BP for rm = 110 are PRESUMED, the
8086 table the spec supplies from general knowledge (G2, G3, log 12). Code 110 has this base in modes
Displace8 and Displace16 only. -/
def baseOf (rm : BitVec 3) : Base :=
  match rm.toNat with
  | 0 => .bxSi
  | 1 => .bxDi
  | 2 => .bpSi
  | 3 => .bpDi
  | 4 => .si
  | 5 => .di
  | 6 => .bp
  | _ => .bx

/-- `dlen(mod, rm)`: the displacement length in bytes of forms 1 and 3 (R72). -/
def dlen (mod : BitVec 2) (rm : BitVec 3) : Nat :=
  match modeOf mod with
  | .memory => if rm = 0b110#3 then 2 else 0
  | .displace8 => 1
  | .displace16 => 2
  | .registerDirect => 0

/-! ## Lengths (R76) -/

/-- `len(RM_REG) = 2 + dlen(mod, rm)` (R76). -/
def lenRmReg (mod : BitVec 2) (rm : BitVec 3) : Nat := 2 + dlen mod rm

/-- `len(IMM_REG) = 2 + w` (R76). -/
def lenImmReg (w : Bool) : Nat := 2 + w.toNat

/-- `len(IMM_RM) = 2 + dlen(mod, rm) + (1 + w)` (R76). -/
def lenImmRm (w : Bool) (mod : BitVec 2) (rm : BitVec 3) : Nat := 2 + dlen mod rm + (1 + w.toNat)

/-- `len(ACC_MEM) = 2 + w` (R76). -/
def lenAccMem (w : Bool) : Nat := 2 + w.toNat

/-- The exact length of an instruction in bytes (R76). -/
def Instr.len : Instr → Nat
  | .movRmReg _ mod _ rm _ => lenRmReg mod rm
  | .movRegRm _ mod _ rm _ => lenRmReg mod rm
  | .movRegImm w _ _ => lenImmReg w
  | .movRmImm w mod rm _ _ => lenImmRm w mod rm
  | .movAxMem w _ => lenAccMem w
  | .movMemAx w _ => lenAccMem w

/-- The length field of a record (R23). -/
def Record.len : Record → Nat
  | .rmReg _ _ _ _ _ _ len => len
  | .immReg _ _ _ len => len
  | .immRm _ _ _ _ _ len => len
  | .accMem _ _ _ len => len

/-- The form of an instruction (R23). -/
def Instr.form : Instr → Form
  | .movRmReg .. => .rmReg
  | .movRegRm .. => .rmReg
  | .movRegImm .. => .immReg
  | .movRmImm .. => .immRm
  | .movAxMem .. => .accMem
  | .movMemAx .. => .accMem

end Sys2Proof
end

