-- ==== Sys2Proof/WellFormed.lean ====
section
/-! DEFINITION. Which terms of Instr an encoding can hold: the sizes of displacement, immediate and
address follow from mod, rm and w (R72, R75, R160). Every other field admits every value (R79). -/

namespace Sys2Proof

/-- The displacement has the size `dlen(mod, rm)`, absent for 0 (R73). -/
def dispFits (mod : BitVec 2) (rm : BitVec 3) (disp : Option Disp) : Bool :=
  sizeOrZero disp == dlen mod rm

/-- The immediate or address has the size `1 + w` (R75, R160). -/
def widthFits (w : Bool) (f : Sized) : Bool :=
  f.size == 1 + w.toNat

/-- The instruction is one an encoding of its form can hold. -/
def Instr.wellFormed : Instr → Bool
  | .movRmReg _ mod _ rm disp => dispFits mod rm disp
  | .movRegRm _ mod _ rm disp => dispFits mod rm disp
  | .movRegImm w _ imm => widthFits w imm
  | .movRmImm w mod rm disp imm => dispFits mod rm disp && widthFits w imm
  | .movAxMem w addr => widthFits w addr
  | .movMemAx w addr => widthFits w addr

end Sys2Proof
end

