-- ==== Sys2Proof/Decode.lean ====
section
/-! DEFINITION. The opcode matcher, the decode function of R78 (30_encoding.md), total on every window,
and the encoder written from the same byte maps (R61 to R64). -/

namespace Sys2Proof

/-! ## The matcher -/

/-- The ordered table of (mask, value) entries (R65). -/
def opcodeTable : List OpcodeEntry :=
  [⟨0xFC#8, 0x88#8, .rmReg⟩, ⟨0xF0#8, 0xB0#8, .immReg⟩, ⟨0xFE#8, 0xC6#8, .immRm⟩, ⟨0xFC#8, 0xA0#8, .accMem⟩]

/-- `match(b_0)`: the form of the first entry with `(b_0 AND mask) = value` (R65). -/
def matchForm (b0 : Byte) : Option Form :=
  (opcodeTable.find? fun e => b0 &&& e.mask == e.value).map (·.form)

/-! ## Reading fields of the window -/

/-- The field of `size` bytes at window byte `k`, low-order byte first (R42). Bytes outside the window
give nothing (R46). -/
def sizedAt (b : List Byte) (k : Nat) : Nat → Option Sized
  | 1 => (b[k]?).map .byte
  | 2 =>
    match b[k]?, b[k + 1]? with
    | some lo, some hi => some (.half (le16 lo hi))
    | _, _ => none
  | _ => none

/-- `dispval(b, dl)`: the displacement that starts at window byte 2, raw and unsigned (R73). The outer
Option is the refusal of R46; the inner one is a form without displacement. -/
def dispVal (b : List Byte) : Nat → Option (Option Disp)
  | 0 => some none
  | dl + 1 => (sizedAt b 2 (dl + 1)).map some

/-- `immval(b, k, w)`: the field of `1 + w` bytes that starts at window byte `k` (R75, R160). -/
def immVal (b : List Byte) (k : Nat) (w : Bool) : Option Imm :=
  sizedAt b k (1 + w.toNat)

/-- Go on with a value that was read; refuse a read outside the window (R46). -/
def orRefuse {α : Type} (read : Option α) (k : α → DecodeResult) : DecodeResult :=
  match read with
  | some v => k v
  | none => .refusedRead

/-- The length check `n < len` that comes before any displacement, immediate or address byte is read
(R76, R256). -/
def checkLength (b : List Byte) (len : Nat) (k : DecodeResult) : DecodeResult :=
  if b.length < len then .err (.truncatedInput len b.length) else k

/-- Forms 1 and 3 need `b_1` to know their length: `n < 2` raises TruncatedInput{need 2} (R76). -/
def withSecondByte (b : List Byte) (k : Byte → DecodeResult) : DecodeResult :=
  checkLength b 2 (orRefuse b[1]? k)

/-! ## The decode function -/

/-- The RM_REG arm of R78 (R100); d chooses the row of the table (R101, R102). -/
def decodeRmReg (b : List Byte) (b0 : Byte) : DecodeResult :=
  withSecondByte b fun b1 =>
    checkLength b (lenRmReg (modField b1) (rmField b1)) <|
      orRefuse (dispVal b (dlen (modField b1) (rmField b1))) fun disp =>
        if directionBit b0
        then .ok (.movRegRm (wideBit b0) (modField b1) (regField b1) (rmField b1) disp)
        else .ok (.movRmReg (wideBit b0) (modField b1) (regField b1) (rmField b1) disp)

/-- The IMM_REG arm of R78 (R120). -/
def decodeImmReg (b : List Byte) (b0 : Byte) : DecodeResult :=
  checkLength b (lenImmReg (wideBitImmReg b0)) <|
    orRefuse (immVal b 1 (wideBitImmReg b0)) fun imm =>
      .ok (.movRegImm (wideBitImmReg b0) (regFieldImmReg b0) imm)

/-- The IMM_RM arm of R78 (R140). Bits `b_1[5:3]` are not examined (R63; DESIGN CHOICE of the spec, D8,
log 13). -/
def decodeImmRm (b : List Byte) (b0 : Byte) : DecodeResult :=
  withSecondByte b fun b1 =>
    checkLength b (lenImmRm (wideBit b0) (modField b1) (rmField b1)) <|
      orRefuse (dispVal b (dlen (modField b1) (rmField b1))) fun disp =>
        orRefuse (immVal b (2 + dlen (modField b1) (rmField b1)) (wideBit b0)) fun imm =>
          .ok (.movRmImm (wideBit b0) (modField b1) (rmField b1) disp imm)

/-- The ACC_MEM arm of R78 (R160): the address has 8 bits when w = 0, as the document says (G5, log 14);
a chooses the row of the table (R161, R162). -/
def decodeAccMem (b : List Byte) (b0 : Byte) : DecodeResult :=
  checkLength b (lenAccMem (wideBit b0)) <|
    orRefuse (immVal b 1 (wideBit b0)) fun addr =>
      if directionBit b0
      then .ok (.movMemAx (wideBit b0) addr)
      else .ok (.movAxMem (wideBit b0) addr)

/-- `decode(b, n)` (R78), where `b` is the window and `n` its length. An empty window is outside its
domain: reading `b_0` there is an out-of-range read (R46). -/
def decode (b : List Byte) : DecodeResult :=
  orRefuse b[0]? fun b0 =>
    match matchForm b0 with
    | none => .err (.unsupportedOpcode b0)
    | some .rmReg => decodeRmReg b b0
    | some .immReg => decodeImmReg b b0
    | some .immRm => decodeImmRm b b0
    | some .accMem => decodeAccMem b b0

/-- The instruction a decode gives, none where it gives an error. -/
def DecodeResult.instr? : DecodeResult → Option Instr
  | .ok i => some i
  | .err _ => none
  | .refusedRead => none

/-! ## The encoder -/

/-- The bytes of a sized field, low-order byte first (R42). -/
def encodeSized : Sized → List Byte
  | .byte b => [b]
  | .half h => [loByte h, hiByte h]

/-- The bytes of an optional displacement (R64). -/
def encodeDisp : Option Disp → List Byte
  | none => []
  | some d => encodeSized d

/-- The mod/reg/rm byte (R62). -/
def modRegRm (mod : BitVec 2) (reg rm : BitVec 3) : Byte := mod ++ reg ++ rm

/-- The bytes of an instruction in stream order (R61 to R64). Form 3 writes 000 in the ignored bits of
`b_1` (R63; log 13). -/
def encode : Instr → List Byte
  | .movRmReg w mod reg rm disp => (0b1000100#7 ++ BitVec.ofBool w) :: modRegRm mod reg rm :: encodeDisp disp
  | .movRegRm w mod reg rm disp => (0b1000101#7 ++ BitVec.ofBool w) :: modRegRm mod reg rm :: encodeDisp disp
  | .movRegImm w reg imm => (0b1011#4 ++ BitVec.ofBool w ++ reg) :: encodeSized imm
  | .movRmImm w mod rm disp imm =>
    (0b1100011#7 ++ BitVec.ofBool w) :: modRegRm mod 0b000#3 rm :: (encodeDisp disp ++ encodeSized imm)
  | .movAxMem w addr => (0b1010000#7 ++ BitVec.ofBool w) :: encodeSized addr
  | .movMemAx w addr => (0b1010001#7 ++ BitVec.ofBool w) :: encodeSized addr

/-! ## The host's numbering of an instruction's bits -/

/-- The bytes of an instruction given as a number whose bits 7 to 0 are the first byte: as many as the
longest instruction has, every bit from `nbits` up zero. -/
def tableBytes (nbits w : Nat) : List Byte :=
  (List.range Config.winMax).map fun k => BitVec.ofNat 8 ((w % 2 ^ nbits) >>> (8 * k))

/-- What the decoder reads from the bytes of `tableBytes`. -/
def decodeTableWord (nbits w : Nat) : Option Instr :=
  (decode (tableBytes nbits w)).instr?

end Sys2Proof
end

