-- ==== Sys2Proof/Machine/State.lean ====
section
/-! DEFINITION. The machine's state: the sequencer's registers and the parameters of the run
(10_state.md, section 4). The decode core holds no state (R20). -/

namespace Sys2Proof.Machine

/-- The input buffer as cells (byte position, byte). Its one form is `Memory.wf` (Machine/Ops.lean). -/
abbrev Memory := List Host.Cell

/-- The two kinds of decode error (R31, R221, R222). -/
inductive ErrorKind where
  | truncatedInput
  | unsupportedOpcode
deriving DecidableEq, Repr

/-- What the error latch records: kind, byte position of the failing instruction's first byte, and the
raw first byte for UnsupportedOpcode (R31). -/
structure ErrorLatch where
  kind : ErrorKind
  pos  : Nat
  raw  : Option Byte
deriving DecidableEq, Repr

/-- Run status, derived from `off`, `halt` and `N` (R33). -/
inductive Status where
  | running
  | finished
  | failed
deriving DecidableEq, Repr

/-- The state. -/
structure State where
  /-- `buf`: the input buffer, a read-only parameter of the run (R34, R40). -/
  buf        : Memory
  /-- `N`: the length of the input buffer in bytes, a parameter of the run (R40). -/
  N          : Nat
  /-- DISP_SIGN_BY: a parameter of the run (R6, R25). -/
  dispSignBy : DispSignBy
  /-- VERBOSE: a parameter of the run, with no effect on any output (R25). -/
  verbose    : Bool
  /-- `off`: the cursor offset in bits, the block's program counter (R30). -/
  off        : Nat
  /-- `halt`: the error latch (R31). -/
  halt       : Option ErrorLatch
  /-- `out`: the output stream, each record with its byte position, oldest first (R32). -/
  out        : List (Nat × Record)
deriving DecidableEq, Repr

/-- The reasons the machine stops: the two end states of a run, which have no step (R33, R200). -/
inductive Fault where
  /-- Raised by the step and the meanings in a finished state. Safe: the spec gives that state no step. -/
  | runFinished
  /-- Raised by the step and the meanings in a failed state. Safe: the spec gives that state no step. -/
  | runFailed
deriving DecidableEq, Repr

/-- The reasons a step is refused. -/
inductive Refusal where
  /-- Raised by an arm of exec whose instruction has no meaning yet. Safe. No arm of this model does. -/
  | notModelled (mnemonic : String)
  /-- Raised by a read at a position of the buffer at or above N, or of a window byte at or above n:
  refused, never given a value (R46, U1). Safe, and unreachable under the length checks. -/
  | outOfRangeRead
  /-- Raised by a fetch of a byte below N that the caller did not supply (R252, log 5). Safe, and
  unreachable from a run whose buffer was supplied whole. -/
  | bufferNotSupplied
deriving DecidableEq, Repr

/-- Reset (R250): `off = 0`, `halt = none`, `out = []` (the spec's D18, log 2). The caller supplies the
parameters; without a caller the buffer is the empty input (DESIGN CHOICE, log 1), DISP_SIGN_BY has its
default (log 3) and VERBOSE is off (DESIGN CHOICE, log 4). -/
def State.reset : State where
  buf := []
  N := 0
  dispSignBy := Config.dispSignByDefault
  verbose := false
  off := 0
  halt := none
  out := []

end Sys2Proof.Machine
end

