-- ==== Sys2Proof/Machine/Ops.lean ====
section
/-! DEFINITION. The named operations over the buffer and the sequencer's registers: reading and loading
the buffer, the window fetch, run status, accepting a record, taking an error, starting a run. -/

namespace Sys2Proof.Machine

/-! ## The input buffer -/

/-- What an unlisted position reads as: nothing. The spec has the caller supply every byte (R252), so the
model gives an unsupplied byte no value (safe, log 5). -/
def unlisted : Option Byte := none

/-- The canonical form of a buffer: positions strictly rising, and no entry equal to what an unlisted
position reads as. -/
abbrev Memory.wf (m : Memory) : Prop :=
  m.Pairwise (fun c c' => c.1 < c'.1) ∧ ∀ c ∈ m, some c.2 ≠ unlisted

/-- The byte at a position. -/
def readByte : Memory → Nat → Option Byte
  | [], _ => unlisted
  | (k, b) :: m, a => if k = a then some b else readByte m a

/-- Put a byte at a position, keeping the canonical form. It is the caller's load: the block itself
writes no memory (R8, R40). -/
def writeByte : Memory → Nat → Byte → Memory
  | [], a, v => [(a, v)]
  | (k, b) :: m, a, v =>
    if a < k then (a, v) :: (k, b) :: m
    else if a = k then (a, v) :: m
    else (k, b) :: writeByte m a v

/-- Put bytes at consecutive positions. -/
def writeBytes (m : Memory) (a : Nat) : List Byte → Memory
  | [] => m
  | v :: vs => writeBytes (writeByte m a v) (a + 1) vs

/-- The cells of a byte sequence laid out from a position on. -/
def cellsFrom (a : Nat) : List Byte → Memory
  | [] => []
  | v :: vs => (a, v) :: cellsFrom (a + 1) vs

/-- One byte of the run's buffer. A position at or above N does not exist: the read is refused (R46). -/
def fetchByte (s : State) (a : Nat) : Except Refusal Byte :=
  if a < s.N then
    match readByte s.buf a with
    | some b => .ok b
    | none => .error .bufferNotSupplied
  else .error .outOfRangeRead

/-- `MemRead(a, k)`: the bytes at `a` to `a+k-1`, in increasing order (R8, R42). -/
def memRead (s : State) (a : Nat) : Nat → Except Refusal (List Byte)
  | 0 => .ok []
  | k + 1 =>
    match fetchByte s a, memRead s (a + 1) k with
    | .ok b, .ok bs => .ok (b :: bs)
    | .error r, _ => .error r
    | .ok _, .error r => .error r

/-! ## The sequencer's derived values -/

/-- `pos = off div 8` (R30). -/
def State.pos (s : State) : Nat := s.off / 8

/-- `min(WIN_MAX, N - p)`: how many bytes the window at byte position `p` holds (R43). -/
def windowLength (s : State) (p : Nat) : Nat := min Config.winMax (s.N - p)

/-- The window at byte position `p` (R43). -/
def windowAt (s : State) (p : Nat) : Except Refusal (List Byte) := memRead s p (windowLength s p)

/-- Run status (R33). An offset above 8·N, which no run reaches (R204), counts as finished: the model
stops there (safe, log 7). -/
def State.status (s : State) : Status :=
  match s.halt with
  | some _ => .failed
  | none => if s.off < 8 * s.N then .running else .finished

/-- The run is running: `halt = none` and `off < 8·N` (R33). -/
abbrev State.Running (s : State) : Prop := s.halt = none ∧ s.off < 8 * s.N

/-- The run is finished: `halt = none` and `off = 8·N` (R33). -/
abbrev State.Finished (s : State) : Prop := s.halt = none ∧ s.off = 8 * s.N

/-- The run is failed: `halt ≠ none` (R33). -/
abbrev State.Failed (s : State) : Prop := s.halt ≠ none

/-- Go on in a running state; the end states have no step (R200, log 6). -/
def whileRunning (s : State) (go : Host.Outcome State Fault Refusal) : Host.Outcome State Fault Refusal :=
  match s.status with
  | .running => go
  | .finished => .fault .runFinished
  | .failed => .fault .runFailed

/-! ## Taking an error -/

/-- `kind(e)` (R202). -/
def errorKind : DecodeError → ErrorKind
  | .truncatedInput _ _ => .truncatedInput
  | .unsupportedOpcode _ => .unsupportedOpcode

/-- `raw(e)`: the first byte for UnsupportedOpcode, none for TruncatedInput (R202). -/
def errorRaw : DecodeError → Option Byte
  | .truncatedInput _ _ => none
  | .unsupportedOpcode raw => some raw

/-- Error entry (R202, R225): latch kind, position of the failing instruction's first byte (the spec's
D7, log 17) and raw byte. Nothing else changes; there is no vector, handler or saved context, and no
return (R226). -/
def takeError (e : DecodeError) (s : State) : State :=
  { s with halt := some { kind := errorKind e, pos := s.pos, raw := errorRaw e } }

/-! ## Accepting a decoded instruction -/

/-- `out <- out ++ [(pos, I)]` and `off <- off + 8·len` (R201). -/
def accept (I : Record) (s : State) : State :=
  { s with out := s.out ++ [(s.pos, I)], off := s.off + 8 * I.len }

/-- The shared effect of every instruction: in a running state whose window holds the whole instruction,
accept its record (R201). An instruction longer than the window raises TruncatedInput (R76, log 8). -/
def retire (I : Record) (s : State) : Host.Outcome State Fault Refusal :=
  whileRunning s <|
    if I.len ≤ windowLength s s.pos
    then .next (accept I s)
    else .next (takeError (.truncatedInput (I.len) (windowLength s s.pos)) s)

/-! ## Starting a run, and placing an instruction -/

/-- A new run (R250): the caller supplies the whole buffer and the two parameters (R252); every register
has its reset value and nothing survives from an earlier run. -/
def startRun (bytes : List Byte) (dispSignBy : DispSignBy) (verbose : Bool) : State :=
  { State.reset with
    buf := cellsFrom 0 bytes, N := bytes.length, dispSignBy := dispSignBy, verbose := verbose }

/-- The caller supplies bytes at the fetch position and a run that is not failed (log 21). -/
def placeAtFetch (bytes : List Byte) (s : State) : State :=
  { s with
    buf := writeBytes s.buf s.pos bytes, N := max s.N (s.pos + bytes.length), halt := none }

end Sys2Proof.Machine
end

