-- ==== Sys2Proof/Machine/AccMem.lean ====
section
/-! DEFINITION. Form 4, memory to/from accumulator (43_mov_acc_mem.md), as the document says it and not
as the real 8086 has it (G5, log 14). -/

namespace Sys2Proof.Machine

/-- `AccMem{a: 0, w, addr, len}` (R161). -/
def recordMovAxMem (w : Bool) (addr : Addr) : Record :=
  .accMem false w addr (lenAccMem w)

/-- `AccMem{a: 1, w, addr, len}` (R162). -/
def recordMovMemAx (w : Bool) (addr : Addr) : Record :=
  .accMem true w addr (lenAccMem w)

/-- MOV AX, [addr] (R161, R201). -/
def execMovAxMem (w : Bool) (addr : Addr) (s : State) : Host.Outcome State Fault Refusal :=
  retire (recordMovAxMem w addr) s

/-- MOV [addr], AX (R162, R201). -/
def execMovMemAx (w : Bool) (addr : Addr) (s : State) : Host.Outcome State Fault Refusal :=
  retire (recordMovMemAx w addr) s

end Sys2Proof.Machine
end

