-- ==== Sys2Proof/Machine/ImmReg.lean ====
section
/-! DEFINITION. Form 2, immediate to register (41_mov_imm_reg.md). -/

namespace Sys2Proof.Machine

/-- `ImmReg{w, reg, imm, len}` (R120). -/
def recordMovRegImm (w : Bool) (reg : BitVec 3) (imm : Imm) : Record :=
  .immReg w reg imm (lenImmReg w)

/-- MOV reg, imm (R120, R201). -/
def execMovRegImm (w : Bool) (reg : BitVec 3) (imm : Imm) (s : State) :
    Host.Outcome State Fault Refusal :=
  retire (recordMovRegImm w reg imm) s

end Sys2Proof.Machine
end

