-- ==== Sys2Proof/Machine/ImmRm.lean ====
section
/-! DEFINITION. Form 3, immediate to register/memory (42_mov_imm_rm.md). -/

namespace Sys2Proof.Machine

/-- `ImmRm{w, mod, rm, disp, imm, len}` (R140). -/
def recordMovRmImm (w : Bool) (mod : BitVec 2) (rm : BitVec 3) (disp : Option Disp) (imm : Imm) : Record :=
  .immRm w mod rm disp imm (lenImmRm w mod rm)

/-- MOV r/m, imm (R140, R201). -/
def execMovRmImm (w : Bool) (mod : BitVec 2) (rm : BitVec 3) (disp : Option Disp) (imm : Imm) (s : State) :
    Host.Outcome State Fault Refusal :=
  retire (recordMovRmImm w mod rm disp imm) s

end Sys2Proof.Machine
end

