-- ==== Sys2Proof/Machine/RmReg.lean ====
section
/-! DEFINITION. Form 1, register/memory to/from register (40_mov_rm_reg.md). The block outputs the
record and advances; it performs no move (R51). -/

namespace Sys2Proof.Machine

/-- `RmReg{d: 0, w, mod, reg, rm, disp, len}` (R101). -/
def recordMovRmReg (w : Bool) (mod : BitVec 2) (reg rm : BitVec 3) (disp : Option Disp) : Record :=
  .rmReg false w mod reg rm disp (lenRmReg mod rm)

/-- `RmReg{d: 1, w, mod, reg, rm, disp, len}` (R102). -/
def recordMovRegRm (w : Bool) (mod : BitVec 2) (reg rm : BitVec 3) (disp : Option Disp) : Record :=
  .rmReg true w mod reg rm disp (lenRmReg mod rm)

/-- MOV r/m, reg (R101, R201). -/
def execMovRmReg (w : Bool) (mod : BitVec 2) (reg rm : BitVec 3) (disp : Option Disp) (s : State) :
    Host.Outcome State Fault Refusal :=
  retire (recordMovRmReg w mod reg rm disp) s

/-- MOV reg, r/m (R102, R201). -/
def execMovRegRm (w : Bool) (mod : BitVec 2) (reg rm : BitVec 3) (disp : Option Disp) (s : State) :
    Host.Outcome State Fault Refusal :=
  retire (recordMovRegRm w mod reg rm disp) s

end Sys2Proof.Machine
end

