-- ==== Sys2Proof/Machine/Operands.lean ====
section
/-! DEFINITION. The decode core's derived outputs (R24 of 10_state.md): pure functions of the record and
of DISP_SIGN_BY. A record no decode outputs, whose displacement does not fit mod and rm, has no rm
operand (log 20). -/

namespace Sys2Proof

/-- The record an instruction's decode outputs (R23). -/
def Instr.record : Instr → Record
  | .movRmReg w mod reg rm disp => Machine.recordMovRmReg w mod reg rm disp
  | .movRegRm w mod reg rm disp => Machine.recordMovRegRm w mod reg rm disp
  | .movRegImm w reg imm => Machine.recordMovRegImm w reg imm
  | .movRmImm w mod rm disp imm => Machine.recordMovRmImm w mod rm disp imm
  | .movAxMem w addr => Machine.recordMovAxMem w addr
  | .movMemAx w addr => Machine.recordMovMemAx w addr

/-- The effective-address resolver `rmop(mod, rm, w, disp)` (R71). -/
def rmOperand (mod : BitVec 2) (rm : BitVec 3) (w : Bool) (disp : Option Disp) : Option Operand :=
  match modeOf mod, disp with
  | .registerDirect, none => some (.reg (regName rm w))
  | .memory, none => if rm = 0b110#3 then none else some (.mem (baseOf rm) none)
  | .memory, some (.half a) => if rm = 0b110#3 then some (.direct a.toNat) else none
  | .displace8, some (.byte d) => some (.mem (baseOf rm) (some (.byte d)))
  | .displace16, some (.half d) => some (.mem (baseOf rm) (some (.half d)))
  | _, _ => none

/-- The addressing mode of a record; forms 2 and 4 have no mod field (R23, R24, C13). -/
def Record.mode : Record → Option Mode
  | .rmReg _ _ mod _ _ _ _ => some (modeOf mod)
  | .immReg .. => none
  | .immRm _ mod _ _ _ _ => some (modeOf mod)
  | .accMem .. => none

/-- The register the reg field names; forms 3 and 4 have no reg field (R23, R24). -/
def Record.regOperand : Record → Option Reg
  | .rmReg _ w _ reg _ _ _ => some (regName reg w)
  | .immReg w reg _ _ => some (regName reg w)
  | .immRm .. => none
  | .accMem .. => none

/-- The rm operand descriptor of a record; forms 2 and 4 have no rm field (R23, R24, R71). -/
def Record.rmDescriptor : Record → Option Operand
  | .rmReg _ w mod _ rm disp _ => rmOperand mod rm w disp
  | .immReg .. => none
  | .immRm w mod rm disp _ _ => rmOperand mod rm w disp
  | .accMem .. => none

/-- The destination: the register for d = 1 and the rm operand for d = 0 (R101, R102), the register of
form 2 (R120), the rm operand of form 3 (R140), AX for a = 0 and the address for a = 1 (R161, R162). -/
def Record.dest : Record → Option Operand
  | .rmReg d w mod reg rm disp _ => if d then some (.reg (regName reg w)) else rmOperand mod rm w disp
  | .immReg w reg _ _ => some (.reg (regName reg w))
  | .immRm w mod rm disp _ _ => rmOperand mod rm w disp
  | .accMem a _ addr _ => if a then some (.direct addr.raw) else some (.reg .ax)

/-- The source (R101, R102, R120, R140, R161, R162). -/
def Record.src : Record → Option Operand
  | .rmReg d w mod reg rm disp _ => if d then rmOperand mod rm w disp else some (.reg (regName reg w))
  | .immReg _ _ imm _ => some (.imm imm)
  | .immRm _ _ _ _ imm _ => some (.imm imm)
  | .accMem a _ addr _ => if a then some (.reg .ax) else some (.direct addr.raw)

/-- The signed displacement of a raw field: by the field's own width, or by the instruction's w bit
(R74). -/
def signedDisp (signBy : DispSignBy) (w : Bool) (disp : Disp) : Int :=
  match signBy with
  | .field => disp.signed
  | .w =>
    if w then (BitVec.ofNat 16 disp.raw).toInt else (BitVec.ofNat 8 disp.raw).toInt

/-- The signed displacement of form 1 and 3 operands, in modes Displace8 and Displace16 only (R74). -/
def signedDispOf (signBy : DispSignBy) (w : Bool) (mod : BitVec 2) (disp : Option Disp) : Option Int :=
  match modeOf mod with
  | .displace8 => disp.map (signedDisp signBy w)
  | .displace16 => disp.map (signedDisp signBy w)
  | .memory => none
  | .registerDirect => none

/-- The signed displacement of a record (R24, R74). -/
def Record.sdisp (signBy : DispSignBy) : Record → Option Int
  | .rmReg _ w mod _ _ disp _ => signedDispOf signBy w mod disp
  | .immReg .. => none
  | .immRm w mod _ disp _ _ => signedDispOf signBy w mod disp
  | .accMem .. => none

/-- The signed view of an immediate: `signed_8` for w = 0, `signed_16` for w = 1, which are its own
width (R75). -/
def signedImm (imm : Imm) : Int := imm.signed

/-- The signed view of a record's immediate; forms 1 and 4 have none (R75). -/
def Record.simm : Record → Option Int
  | .rmReg .. => none
  | .immReg _ _ imm _ => some (signedImm imm)
  | .immRm _ _ _ _ imm _ => some (signedImm imm)
  | .accMem .. => none

/-- The w flag of a record (R23). -/
def Record.wide : Record → Bool
  | .rmReg _ w _ _ _ _ _ => w
  | .immReg w _ _ _ => w
  | .immRm w _ _ _ _ _ => w
  | .accMem _ w _ _ => w

/-- The result code of a decode: 0 OK, 1 TruncatedInput, 2 UnsupportedOpcode (R223; the spec's D5, log
16). A refused read is no result of the block. -/
def resultCode : DecodeResult → Option Nat
  | .ok _ => some 0
  | .err (.truncatedInput _ _) => some 1
  | .err (.unsupportedOpcode _) => some 2
  | .refusedRead => none

end Sys2Proof
end

