-- ==== Sys2Proof/Machine/Dispatch.lean ====
section
/-! DEFINITION. The dispatcher: one arm per constructor of Instr, one direct call of its meaning. -/

namespace Sys2Proof.Machine

def exec (i : Instr) (s : State) : Host.Outcome State Fault Refusal :=
  match i with
  -- form 1 (R101, R102)
  | .movRmReg w mod reg rm disp => Sys2Proof.Machine.execMovRmReg w mod reg rm disp s
  | .movRegRm w mod reg rm disp => Sys2Proof.Machine.execMovRegRm w mod reg rm disp s
  -- form 2 (R120)
  | .movRegImm w reg imm => Sys2Proof.Machine.execMovRegImm w reg imm s
  -- form 3 (R140)
  | .movRmImm w mod rm disp imm => Sys2Proof.Machine.execMovRmImm w mod rm disp imm s
  -- form 4 (R161, R162)
  | .movAxMem w addr => Sys2Proof.Machine.execMovAxMem w addr s
  | .movMemAx w addr => Sys2Proof.Machine.execMovMemAx w addr s

end Sys2Proof.Machine
end

