-- ==== Sys2Proof/Machine/Sequencer.lean ====
section
/-! DEFINITION. What the sequencer does with a window and with a decode's result (R200 to R202 of
45_sequencer.md). -/

namespace Sys2Proof.Machine

/-- Act on a decode's result: run the instruction (R201), latch the error (R202), or refuse an
out-of-range read (R46). -/
def act (r : DecodeResult) (s : State) : Host.Outcome State Fault Refusal :=
  match r with
  | .ok i => exec i s
  | .err e => .next (takeError e s)
  | .refusedRead => .refused .outOfRangeRead

/-- Fetch the window at `pos`, decode it and act on the result (R43, R201, R202). -/
def fetchDecodeAct (s : State) : Host.Outcome State Fault Refusal :=
  match windowAt s s.pos with
  | .ok b => act (decode b) s
  | .error r => .refused r

/-- One step of the sequencer: it exists only while the run is running (R200). -/
def sequencerStep (s : State) : Host.Outcome State Fault Refusal :=
  whileRunning s (fetchDecodeAct s)

end Sys2Proof.Machine
end

