-- ==== Sys2Proof/Machine/Step.lean ====
section
/-! DEFINITION. The machine's step, and the placing of one instruction where the step fetches. -/

namespace Sys2Proof.Machine

/-- One step of the machine: one decode of the sequencer (R200, R258). -/
def step (s : State) : Host.Outcome State Fault Refusal := sequencerStep s

/-- `s` with the instruction whose bits are `w` (numbered as the opcode table numbers them) supplied
where the next window is fetched (log 21). -/
def State.withFetchWord (s : State) (nbits w : Nat) : State := placeAtFetch (tableBytes nbits w) s

end Sys2Proof.Machine
end

