-- ==== Sys2Proof/Machine/Render.lean ====
section
/-! DEFINITION. The downstream renderer's contract (44_rendering.md): the text of the machine's outputs.
It is a function of the state and no part of the step (R4). `State.text` is its sequence of lines (R180) and
`State.textStream` its characters, each line ended by a newline (the spec's D16, log 18). -/

namespace Sys2Proof.Machine

/-- The spelling of a register (R181). -/
def regText : Reg → String
  | .al => "al" | .cl => "cl" | .dl => "dl" | .bl => "bl"
  | .ah => "ah" | .ch => "ch" | .dh => "dh" | .bh => "bh"
  | .ax => "ax" | .cx => "cx" | .dx => "dx" | .bx => "bx"
  | .sp => "sp" | .bp => "bp" | .si => "si" | .di => "di"

/-- The spelling of a base expression, one space on each side of the plus sign (R182, C12). -/
def baseText : Base → String
  | .bxSi => "bx + si"
  | .bxDi => "bx + di"
  | .bpSi => "bp + si"
  | .bpDi => "bp + di"
  | .si => "si"
  | .di => "di"
  | .bp => "bp"
  | .bx => "bx"

/-- A signed decimal literal (R185). -/
def signedText (k : Int) : String :=
  if k < 0 then "-" ++ Nat.repr k.natAbs else Nat.repr k.natAbs

/-- The displacement suffix: empty for 0, else sign and magnitude (R184). -/
def suffixText (k : Int) : String :=
  if k = 0 then ""
  else if 0 < k then " + " ++ Nat.repr k.natAbs
  else " - " ++ Nat.repr k.natAbs

/-- The size keyword of a form-3 immediate (R186). -/
def sizeKeyword (w : Bool) : String := if w then "word" else "byte"

/-- The text of an operand (R181 to R185, R187). Addresses are unsigned decimal (the spec's D16, log
18). -/
def operandText (signBy : DispSignBy) (w : Bool) : Operand → String
  | .reg r => regText r
  | .mem base none => "[" ++ baseText base ++ "]"
  | .mem base (some d) => "[" ++ baseText base ++ suffixText (signedDisp signBy w d) ++ "]"
  | .direct a => "[" ++ Nat.repr a ++ "]"
  | .imm v => signedText (signedImm v)

/-- The source of form 3 carries its size keyword, for every mod (R186; the spec's D16, log 18). -/
def sourceKeyword : Record → String
  | .immRm w _ _ _ _ _ => sizeKeyword w ++ " "
  | .rmReg .. => ""
  | .immReg .. => ""
  | .accMem .. => ""

/-- The line of a record: `mov <dest>, <src>` (R180, R188). A record without operands, which no decode
outputs, has no line (log 20). -/
def recordText (signBy : DispSignBy) (I : Record) : Option String :=
  match I.dest, I.src with
  | some dest, some src =>
    some ("mov " ++ operandText signBy I.wide dest ++ ", " ++ sourceKeyword I ++
      operandText signBy I.wide src)
  | _, _ => none

/-- The lines of a list of records, in order. -/
def linesText (signBy : DispSignBy) : List (Nat × Record) → Option (List String)
  | [] => some []
  | (_, I) :: rest =>
    match recordText signBy I, linesText signBy rest with
    | some l, some ls => some (l :: ls)
    | _, _ => none

/-- The directive line (R180). -/
def headerLine : String := "bits 16"

/-- The output text: the header, then one line per record decoded so far, in decode order (R180, R189). -/
def State.text (s : State) : Option (List String) :=
  (linesText s.dispSignBy s.out).map (headerLine :: ·)

/-- What ends a line of the text (R180; the spec's D16, log 18). -/
def lineTerminator : String := "\n"

/-- Lines as characters, each ended by its terminator. -/
def terminateLines : List String → String
  | [] => ""
  | l :: ls => l ++ lineTerminator ++ terminateLines ls

/-- The output text as characters: the lines of `State.text`, the header among them, each ended by a
newline (R180; the spec's D16, log 18). -/
def State.textStream (s : State) : Option String := s.text.map terminateLines

/-- The failure report of a failed run: kind, byte position and raw byte (R235). -/
def State.failureReport (s : State) : Option ErrorLatch := s.halt

end Sys2Proof.Machine
end

