-- ==== Sys2Proof/Safety.lean ====
section
/-! DEFINITION. What a sound state and a sound run are, in the terms the statements use: the invariant of
the sequencer (R30, R204, R207, R225) and the reference result of a run as a function of the buffer's
bytes alone. -/

namespace Sys2Proof.Machine

/-- The buffer was supplied whole: exactly the positions below N hold a byte (R40, R252). -/
def Supplied (s : State) : Prop := ∀ a, (readByte s.buf a).isSome = decide (a < s.N)

/-- The records of an output stream follow each other without gap from byte position `p` to `q`: each
position is the previous one plus the previous length (R207, R255). -/
def Chained : Nat → List (Nat × Record) → Nat → Prop
  | p, [], q => p = q
  | p, (a, I) :: rest, q => a = p ∧ Chained (p + I.len) rest q

/-- Each record is what the decode core gives for the window at its position (R201). -/
def Faithful (s : State) : Prop :=
  ∀ e ∈ s.out, ∃ b i, windowAt s e.1 = .ok b ∧ decode b = .ok i ∧ e.2 = i.record

/-- A set latch records the error the decode core gives for the window at the offset (R202, R225). -/
def LatchPrecise (s : State) : Prop :=
  ∀ E, s.halt = some E → s.off < 8 * s.N ∧ E.pos = s.off / 8 ∧
    ∃ b e, windowAt s (s.off / 8) = .ok b ∧ decode b = .err e ∧ E.kind = errorKind e ∧ E.raw = errorRaw e

/-- The invariant of the machine. -/
structure Inv (s : State) : Prop where
  /-- The buffer keeps its canonical form. -/
  canonical : Memory.wf s.buf
  /-- The buffer was supplied whole (R252). -/
  supplied : Supplied s
  /-- `off mod 8 = 0` (R30). -/
  aligned : s.off % 8 = 0
  /-- `off ≤ 8·N` (R30, R204). -/
  bounded : s.off ≤ 8 * s.N
  /-- The output covers the buffer from its first byte to the offset (R207). -/
  chained : Chained 0 s.out (s.off / 8)
  /-- The output is what the decode core gives (R201). -/
  faithful : Faithful s
  /-- The latch is precise (R225). -/
  latched : LatchPrecise s

/-- The run has ended (R33). -/
def Ended (s : State) : Prop := s.Finished ∨ s.Failed

/-- The reference result of a run, as a function of the remaining bytes and their position: decode the
first six bytes, go on behind the instruction, stop at the end or at the first error (R201, R202, R205).
`fuel` bounds the number of instructions. -/
def sweep : Nat → Nat → List Byte → List (Nat × Record) × Option ErrorLatch
  | 0, _, _ => ([], none)
  | fuel + 1, pos, bytes =>
    match decode (bytes.take 6) with
    | .ok i =>
      ((pos, i.record) :: (sweep fuel (pos + i.len) (bytes.drop i.len)).1,
        (sweep fuel (pos + i.len) (bytes.drop i.len)).2)
    | .err e => ([], some { kind := errorKind e, pos := pos, raw := errorRaw e })
    | .refusedRead => ([], none)

/-- The records of a list of instructions laid out one behind the other from a position on (R255). -/
def layOut : Nat → List Instr → List (Nat × Record)
  | _, [] => []
  | pos, i :: is => (pos, i.record) :: layOut (pos + i.len) is

/-- Window byte `k` on hold the field `f`: one byte when narrow, two bytes with the low-order byte first
when wide (R42, R73, R75, R160). -/
def FieldAt (b : List Byte) (k : Nat) (w : Bool) (f : Sized) : Prop :=
  if w then
    ∃ lo hi h, b[k]? = some lo ∧ b[k + 1]? = some hi ∧ f = .half h ∧ h.toNat = hi.toNat * 256 + lo.toNat
  else ∃ v, b[k]? = some v ∧ f = .byte v

/-- The displacement of `dl` bytes that starts at window byte 2 (R73). -/
def DispAt (b : List Byte) (dl : Nat) (disp : Option Disp) : Prop :=
  (dl = 0 → disp = none) ∧ (dl = 1 → ∃ f, disp = some f ∧ FieldAt b 2 false f) ∧
    (dl = 2 → ∃ f, disp = some f ∧ FieldAt b 2 true f)

/-- `signed_8` and `signed_16` of R8, as R8 writes them: `v - 2^k` if bit `k-1` of `v` is 1, else `v`. -/
def twosComplement : Sized → Int
  | .byte v => if v.toNat < 128 then v.toNat else (v.toNat : Int) - 256
  | .half h => if h.toNat < 32768 then h.toNat else (h.toNat : Int) - 65536

/-- Apply a function to the next state of an outcome. -/
def mapNext (f : State → State) (r : Host.Outcome State Fault Refusal) : Host.Outcome State Fault Refusal :=
  match r with
  | .next t => .next (f t)
  | .fault e => .fault e
  | .refused e => .refused e

end Sys2Proof.Machine
end

