-- ==== Sys2Proof/Certificates/Slice0/Obligations.lean ====
section
/-! DEFINITION. The statements for the provers. Each docstring names the rule of spec/ a statement
formalises; a clause that rests on a decision of the spec or of the model names it. -/

open Sys2Proof Sys2Proof.Machine

/-! ## Reset, start of a run, invariant -/

/-- R180, R206, R250: without a caller the reset state is the empty input, already finished, whose text is the
header line. The registers' reset values are the spec's own decision D18 (log 2), the empty input and FIELD
are the model's (logs 1 and 3), and the fault runFinished is the model's form of no further step (log 6). -/
def Obligations.ResetIsFinishedEmptyRun : Prop :=
  State.reset.off = 0 ∧ State.reset.halt = none ∧ State.reset.out = [] ∧ State.reset.N = 0 ∧
    State.reset.dispSignBy = .field ∧ State.reset.Finished ∧ step State.reset = .fault .runFinished ∧
    State.reset.text = some ["bits 16"]

/-- The invariant holds at reset. -/
def Obligations.ResetMeetsInvariant : Prop := Inv State.reset

/-- R250, R252 (D18): a new run has the reset registers, the caller's parameters and exactly the caller's
bytes as its buffer, and it meets the invariant. -/
def Obligations.StartRunSuppliesWholeBuffer : Prop :=
  ∀ (bytes : List Byte) (signBy : DispSignBy) (verbose : Bool),
    let s := startRun bytes signBy verbose
    s.off = 0 ∧ s.halt = none ∧ s.out = [] ∧ s.N = bytes.length ∧ s.dispSignBy = signBy ∧
      s.verbose = verbose ∧ (∀ a, readByte s.buf a = bytes[a]?) ∧ Inv s

/-- R30, R204, R207, R225: every step keeps the canonical buffer, the supplied buffer, the alignment and
bound of the offset, the gapless and faithful output, and the precise latch. -/
def Obligations.StepKeepsInvariant : Prop :=
  ∀ s t : State, Inv s → step s = .next t → Inv t

/-! ## The step -/

/-- R201: a step in a running state whose window decodes to an instruction runs that instruction, and
its effect is the record appended and the offset advanced by eight times its length. -/
def Obligations.StepRunsDecodedInstruction : Prop :=
  ∀ (s : State) (b : List Byte) (i : Instr), s.Running →
    memRead s (s.off / 8) (min 6 (s.N - s.off / 8)) = .ok b → decode b = .ok i →
      step s = exec i s ∧
        step s = .next { s with out := s.out ++ [(s.off / 8, i.record)], off := s.off + 8 * i.record.len }

/-- R202: a step whose decode fails latches kind, position and raw byte, and changes nothing else. That
the position is the start of the instruction is the spec's decision D7 (log 17). -/
def Obligations.StepLatchesDecodeError : Prop :=
  ∀ (s : State) (b : List Byte), s.Running → memRead s (s.off / 8) (min 6 (s.N - s.off / 8)) = .ok b →
    (∀ need avail, decode b = .err (.truncatedInput need avail) →
      step s = .next { s with halt := some ⟨.truncatedInput, s.off / 8, none⟩ }) ∧
    (∀ raw, decode b = .err (.unsupportedOpcode raw) →
      step s = .next { s with halt := some ⟨.unsupportedOpcode, s.off / 8, some raw⟩ })

/-- R200: a step exists only while the run is running. That step says so by the faults runFailed and
runFinished is the model's (log 6), and that a step does exist in every running state that meets the
invariant, a window of one byte included, rests on the spec's decision D4 (log 15). -/
def Obligations.StepExistsOnlyWhileRunning : Prop :=
  ∀ s : State,
    (s.halt ≠ none → step s = .fault .runFailed) ∧
    (s.halt = none → s.off = 8 * s.N → step s = .fault .runFinished) ∧
    ((∃ t, step s = .next t) → s.halt = none ∧ s.off < 8 * s.N) ∧
    (Inv s → s.halt = none → s.off < 8 * s.N → ∃ t, step s = .next t)

/-- R33: run status is derived from `off`, `halt` and `N`, and the two end states have no step. The bound on
the offset is the invariant R30. -/
def Obligations.RunStatusIsDerived : Prop :=
  ∀ s : State, s.off ≤ 8 * s.N →
    (s.status = .running ↔ s.halt = none ∧ s.off < 8 * s.N) ∧
    (s.status = .finished ↔ s.halt = none ∧ s.off = 8 * s.N) ∧
    (s.status = .failed ↔ s.halt ≠ none) ∧
    (s.status ≠ .running → ∀ t, step s ≠ .next t)

/-- R203, R226 (D14): after a failure nothing is skipped and no run of steps goes on; the step that fails
leaves offset and output where they were. The fault runFailed is the model's form of no further step (log
6). -/
def Obligations.FailedRunNeverResumes : Prop :=
  (∀ (s : State) (k : Nat), s.Failed → Host.Core.run Sys2Proof.core (k + 1) s = .fault .runFailed) ∧
  (∀ s t : State, step s = .next t → t.Failed → t.off = s.off ∧ t.out = s.out ∧ s.halt = none)

/-- R43: the window of a step is the `min(6, N - pos)` bytes of the buffer at `pos`, which is the source's
descending choice of a window length whenever two bytes remain. That a window of one byte is decoded is the
spec's decision D4 (log 15). -/
def Obligations.StepDecodesWindowOfBuffer : Prop :=
  (∀ s : State, Supplied s → s.Running →
    ∃ b, b.length = min 6 (s.N - s.off / 8) ∧ 1 ≤ b.length ∧
      (∀ j, j < b.length → b[j]? = readByte s.buf (s.off / 8 + j)) ∧ step s = act (decode b) s) ∧
  (∀ rem, 2 ≤ rem → [48, 40, 32, 24, 16].find? (fun c => c ≤ 8 * rem) = some (min 48 (8 * rem)))

/-- R46 (D21, U1): a read outside the buffer or the window gives no value, and no such read is reached by
a decode of a window or by a step of a machine that meets the invariant. -/
def Obligations.OutOfRangeReadIsRefusedAndUnreachable : Prop :=
  (∀ (s : State) (a : Nat), s.N ≤ a → fetchByte s a = .error .outOfRangeRead) ∧
  (∀ (s : State) (a k : Nat) (b : List Byte), 0 < k → s.N < a + k → memRead s a k ≠ .ok b) ∧
  (∀ (b : List Byte) (o n : Nat), 0 < n → 8 * b.length < o + n → cursorField b o n = none) ∧
  (∀ b : List Byte, b ≠ [] → decode b ≠ .refusedRead) ∧
  (∀ (s : State) (r : Refusal), Inv s → step s ≠ .refused r)

/-! ## The buffer and the parameters of the run -/

/-- R34: the buffer is a read-only parameter of the run: no step and no run of steps changes it. -/
def Obligations.RunNeverChangesBuffer : Prop :=
  (∀ s t : State, step s = .next t → t.buf = s.buf ∧ t.N = s.N) ∧
  (∀ (k : Nat) (s t : State), Host.Core.run Sys2Proof.core k s = .next t →
    t.N = s.N ∧ ∀ a, readByte t.buf a = readByte s.buf a)

/-- R51 (D19): no instruction reads or writes the memory its operands name; its outcome does not depend on
the bytes of the buffer. -/
def Obligations.OperandMemoryIsNeverAccessed : Prop :=
  ∀ (i : Instr) (s : State) (m : Memory),
    exec i { s with buf := m } = mapNext (fun t => { t with buf := m }) (exec i s)

/-- R25, R6 (D11, D13): neither parameter steers a run, and the text does not depend on VERBOSE. -/
def Obligations.ParametersDoNotSteerRun : Prop :=
  ∀ (s : State) (signBy : DispSignBy) (verbose : Bool),
    step { s with dispSignBy := signBy, verbose := verbose } =
        mapNext (fun t => { t with dispSignBy := signBy, verbose := verbose }) (step s) ∧
      { s with verbose := verbose }.text = s.text

/-! ## Bit Cursor, matcher, resolvers -/

/-- R7: the stream is read most significant bit first, a field is the sum the rule writes, and each field
the block extracts is one byte's slice. -/
def Obligations.BitCursorExtractsMsbFirst : Prop :=
  (∀ (b : List Byte) (i : Nat) (v : Byte), b[i / 8]? = some v →
    streamBit b i = some (v.getLsbD (7 - i % 8))) ∧
  (∀ (b : List Byte) (o n : Nat), o + n ≤ 8 * b.length →
    cursorField b o n =
      some (∑ j ∈ Finset.range n, ((streamBit b (o + j)).getD false).toNat * 2 ^ (n - 1 - j))) ∧
  (∀ (b : List Byte) (k : Nat) (v : Byte), b[k]? = some v →
    cursorField b (8 * k) 2 = some (modField v).toNat ∧
    cursorField b (8 * k + 2) 3 = some (regField v).toNat ∧
    cursorField b (8 * k + 5) 3 = some (rmField v).toNat ∧
    cursorField b (8 * k + 6) 1 = some (directionBit v).toNat ∧
    cursorField b (8 * k + 7) 1 = some (wideBit v).toNat ∧
    cursorField b (8 * k + 4) 1 = some (wideBitImmReg v).toNat ∧
    cursorField b (8 * k + 5) 3 = some (regFieldImmReg v).toNat) ∧
  (∀ lo hi : Byte, (le16 lo hi).toNat = hi.toNat * 256 + lo.toNat)

/-- R42: bits of a byte are most significant first, 16-bit fields low byte first, bytes are fetched in
increasing order, and the worked example reads 1. The document shows the byte order by that example only, and
the order is the spec's inference from it (C4, log 10). -/
def Obligations.ByteOrderIsLowByteFirst : Prop :=
  (∀ (v : Byte) (i : Nat), i < 8 → streamBit [v] i = some (v.getLsbD (7 - i))) ∧
  (∀ lo hi : Byte, (le16 lo hi).toNat = hi.toNat * 256 + lo.toNat ∧ encodeSized (.half (le16 lo hi)) = [lo, hi]) ∧
  (∀ (s : State) (a k : Nat) (b : List Byte), memRead s a k = .ok b →
    b.length = k ∧ ∀ j, j < k → b[j]? = readByte s.buf (a + j)) ∧
  (∃ imm, decode [0xB8#8, 0x01#8, 0x00#8] = .ok (.movRegImm true 0b000#3 imm) ∧ imm.raw = 1)

/-- R65: the form is the first of the four entries, in their order, whose masked value is the first
byte's, and each entry's first-byte values are the listed ones. -/
def Obligations.MatcherComparesFourMaskedPatterns : Prop :=
  ∀ b0 : Byte,
    matchForm b0 =
      (if b0 &&& 0xFC#8 = 0x88#8 then some .rmReg
      else if b0 &&& 0xF0#8 = 0xB0#8 then some .immReg
      else if b0 &&& 0xFE#8 = 0xC6#8 then some .immRm
      else if b0 &&& 0xFC#8 = 0xA0#8 then some .accMem
      else none) ∧
    (matchForm b0 = some .rmReg ↔ b0.toNat ∈ [0x88, 0x89, 0x8A, 0x8B]) ∧
    (matchForm b0 = some .immReg ↔ 0xB0 ≤ b0.toNat ∧ b0.toNat ≤ 0xBF) ∧
    (matchForm b0 = some .immRm ↔ b0.toNat ∈ [0xC6, 0xC7]) ∧
    (matchForm b0 = some .accMem ↔ b0.toNat ∈ [0xA0, 0xA1, 0xA2, 0xA3])

/-- R67: each of the 230 other first bytes, among them 8C and 8E, raises UnsupportedOpcode with that byte,
whatever follows it. -/
def Obligations.UnmatchedFirstByteIsUnsupported : Prop :=
  (∀ (b0 : Byte) (rest : List Byte), matchForm b0 = none →
    decode (b0 :: rest) = .err (.unsupportedOpcode b0)) ∧
  ((List.range 256).filter fun n => (matchForm (BitVec.ofNat 8 n)).isNone).length = 230 ∧
  matchForm 0x8C#8 = none ∧ matchForm 0x8E#8 = none

/-- R68: the Addressing Mode Resolver. -/
def Obligations.ModeResolverTable : Prop :=
  modeOf 0b00#2 = .memory ∧ modeOf 0b01#2 = .displace8 ∧ modeOf 0b10#2 = .displace16 ∧
    modeOf 0b11#2 = .registerDirect

/-- R70: the Register Namer names every register exactly once, and is injective in each width class. -/
def Obligations.RegisterNamerIsBijective : Prop :=
  (∀ w : Bool, Function.Injective fun code => regName code w) ∧
    Function.Bijective fun p : BitVec 3 × Bool => regName p.1 p.2

/-- R69: the Register Namer's table. Thirteen entries are the spec's general knowledge (G1, log 11). -/
def Obligations.RegisterNamerTable : Prop :=
  [0, 1, 2, 3, 4, 5, 6, 7].map (fun c => regName (BitVec.ofNat 3 c) false) =
      [.al, .cl, .dl, .bl, .ah, .ch, .dh, .bh] ∧
    [0, 1, 2, 3, 4, 5, 6, 7].map (fun c => regName (BitVec.ofNat 3 c) true) =
      [.ax, .cx, .dx, .bx, .sp, .bp, .si, .di]

/-- R72: the displacement length. -/
def Obligations.DisplacementLengthTable : Prop :=
  ∀ rm : BitVec 3,
    dlen 0b00#2 0b110#3 = 2 ∧ (rm ≠ 0b110#3 → dlen 0b00#2 rm = 0) ∧ dlen 0b01#2 rm = 1 ∧
      dlen 0b10#2 rm = 2 ∧ dlen 0b11#2 rm = 0

/-- R71: the rm resolver's table. The base of each code but 000 is the spec's general knowledge (G2, G3,
log 12). -/
def Obligations.RmOperandTable : Prop :=
  (∀ rm w, rmOperand 0b11#2 rm w none = some (.reg (regName rm w))) ∧
  (∀ w a, rmOperand 0b00#2 0b110#3 w (some (.half a)) = some (.direct a.toNat)) ∧
  (∀ rm w, rm ≠ 0b110#3 → rmOperand 0b00#2 rm w none = some (.mem (baseOf rm) none)) ∧
  (∀ rm w d, rmOperand 0b01#2 rm w (some (.byte d)) = some (.mem (baseOf rm) (some (.byte d)))) ∧
  (∀ rm w d, rmOperand 0b10#2 rm w (some (.half d)) = some (.mem (baseOf rm) (some (.half d)))) ∧
  [0, 1, 2, 3, 4, 5, 6, 7].map (fun c => baseOf (BitVec.ofNat 3 c)) =
    [.bxSi, .bxDi, .bpSi, .bpDi, .si, .di, .bp, .bx]

/-- R74 (the parameter is the spec's D11): by the field's own width under FIELD, by the w bit under W; the
two agree when the size is 1 + w, a one-byte displacement is never negative under W in a wide instruction,
a two-byte one loses its high byte under W in a narrow one. A record has a signed displacement exactly in
modes Displace8 and Displace16 of forms 1 and 3: that of its displacement field. -/
def Obligations.SignedDisplacementByParameter : Prop :=
  (∀ w d, signedDisp .field w d = twosComplement d) ∧
  (∀ d, signedDisp .w false d = twosComplement (.byte (BitVec.ofNat 8 (d.raw % 256)))) ∧
  (∀ d, signedDisp .w true d = twosComplement (.half (BitVec.ofNat 16 d.raw))) ∧
  (∀ w d, d.size = 1 + w.toNat → signedDisp .field w d = signedDisp .w w d) ∧
  (∀ v, 0 ≤ signedDisp .w true (.byte v)) ∧
  (∀ signBy w mod disp, (signedDispOf signBy w mod disp).isSome →
    modeOf mod = .displace8 ∨ modeOf mod = .displace16) ∧
  (∀ signBy d w mod reg rm f imm len, modeOf mod = .displace8 ∨ modeOf mod = .displace16 →
    (Record.rmReg d w mod reg rm (some f) len).sdisp signBy = some (signedDisp signBy w f) ∧
    (Record.immRm w mod rm (some f) imm len).sdisp signBy = some (signedDisp signBy w f)) ∧
  (∀ signBy d w mod reg rm disp imm len, modeOf mod = .memory ∨ modeOf mod = .registerDirect →
    (Record.rmReg d w mod reg rm disp len).sdisp signBy = none ∧
    (Record.immRm w mod rm disp imm len).sdisp signBy = none) ∧
  (∀ signBy a w reg v len, (Record.immReg w reg v len).sdisp signBy = none ∧
    (Record.accMem a w v len).sdisp signBy = none)

/-! ## Decoding -/

/-- R73: the displacement of forms 1 and 3 starts at window byte 2 and is kept raw, low byte first. -/
def Obligations.DisplacementIsRawLittleEndian : Prop :=
  ∀ (b : List Byte) (w : Bool) (mod : BitVec 2) (reg rm : BitVec 3) (disp : Option Disp) (imm : Imm),
    (decode b = .ok (.movRmReg w mod reg rm disp) → DispAt b (dlen mod rm) disp) ∧
    (decode b = .ok (.movRegRm w mod reg rm disp) → DispAt b (dlen mod rm) disp) ∧
    (decode b = .ok (.movRmImm w mod rm disp imm) → DispAt b (dlen mod rm) disp)

/-- R75: the immediate of forms 2 and 3 starts at byte 1 and behind the displacement, is kept raw, and its
signed view is the two's complement of its width. -/
def Obligations.ImmediateIsRawWithSignedView : Prop :=
  ∀ (b : List Byte) (w : Bool) (mod : BitVec 2) (reg rm : BitVec 3) (disp : Option Disp) (imm : Imm),
    (decode b = .ok (.movRegImm w reg imm) →
      FieldAt b 1 w imm ∧ (recordMovRegImm w reg imm).simm = some (twosComplement imm)) ∧
    (decode b = .ok (.movRmImm w mod rm disp imm) →
      FieldAt b (2 + dlen mod rm) w imm ∧
        (recordMovRmImm w mod rm disp imm).simm = some (twosComplement imm))

/-- R76: the exact length of a matched instruction, and TruncatedInput exactly when the window is shorter,
decided by the bytes that determine the length. -/
def Obligations.LengthAndTruncation : Prop :=
  ∀ (b0 : Byte) (rest : List Byte),
    let b := b0 :: rest
    (matchForm b0 = some .rmReg →
      (b.length < 2 → decode b = .err (.truncatedInput 2 b.length)) ∧
      ∀ b1, b[1]? = some b1 →
        let len := 2 + dlen (b1.extractLsb' 6 2) (b1.extractLsb' 0 3)
        (b.length < len → decode b = .err (.truncatedInput len b.length)) ∧
        (len ≤ b.length → ∃ i, decode b = .ok i ∧ i.form = .rmReg ∧ i.record.len = len)) ∧
    (matchForm b0 = some .immReg →
      let len := 2 + (b0.getLsbD 3).toNat
      (b.length < len → decode b = .err (.truncatedInput len b.length)) ∧
      (len ≤ b.length → ∃ i, decode b = .ok i ∧ i.form = .immReg ∧ i.record.len = len)) ∧
    (matchForm b0 = some .immRm →
      (b.length < 2 → decode b = .err (.truncatedInput 2 b.length)) ∧
      ∀ b1, b[1]? = some b1 →
        let len := 2 + dlen (b1.extractLsb' 6 2) (b1.extractLsb' 0 3) + (1 + (b0.getLsbD 0).toNat)
        3 ≤ len ∧ len ≤ 6 ∧
        (b.length < len → decode b = .err (.truncatedInput len b.length)) ∧
        (len ≤ b.length → ∃ i, decode b = .ok i ∧ i.form = .immRm ∧ i.record.len = len)) ∧
    (matchForm b0 = some .accMem →
      let len := 2 + (b0.getLsbD 0).toNat
      (b.length < len → decode b = .err (.truncatedInput len b.length)) ∧
      (len ≤ b.length → ∃ i, decode b = .ok i ∧ i.form = .accMem ∧ i.record.len = len))

/-- R60: the lengths of the four forms, and no instruction of one byte. -/
def Obligations.InstructionLengthsPerForm : Prop :=
  (∀ (b : List Byte) (i : Instr), decode b = .ok i →
    (i.form = .rmReg → i.len ∈ [2, 3, 4]) ∧ (i.form = .immReg → i.len ∈ [2, 3]) ∧
    (i.form = .immRm → i.len ∈ [3, 4, 5, 6]) ∧ (i.form = .accMem → i.len ∈ [2, 3]) ∧
    i.len ≤ b.length) ∧
  (∀ b0 : Byte, ∃ e, decode [b0] = .err e)

/-- R100: the common decoding of form 1: its fields, its record, its five lengths and its errors. -/
def Obligations.FormOneDecodesRecord : Prop :=
  ∀ (d w : Bool) (b1 : Byte) (tail : List Byte),
    let b0 : Byte := 0b100010#6 ++ BitVec.ofBool d ++ BitVec.ofBool w
    let b := b0 :: b1 :: tail
    let mod := b1.extractLsb' 6 2
    let reg := b1.extractLsb' 3 3
    let rm := b1.extractLsb' 0 3
    decode [b0] = .err (.truncatedInput 2 1) ∧
    ∃ len,
      (mod = 0b00#2 → rm ≠ 0b110#3 → len = 2) ∧ (mod = 0b00#2 → rm = 0b110#3 → len = 4) ∧
      (mod = 0b01#2 → len = 3) ∧ (mod = 0b10#2 → len = 4) ∧ (mod = 0b11#2 → len = 2) ∧
      (b.length < len → decode b = .err (.truncatedInput len b.length)) ∧
      (len ≤ b.length → ∃ i disp, decode b = .ok i ∧ i.record = .rmReg d w mod reg rm disp len ∧
        DispAt b (len - 2) disp)

/-- R103: the length properties the document states for form 1. -/
def Obligations.FormOneLengthProperties : Prop :=
  ∀ (b : List Byte) (i : Instr) (d w : Bool) (mod : BitVec 2) (reg rm : BitVec 3) (disp : Option Disp)
    (len : Nat), decode b = .ok i → i.record = .rmReg d w mod reg rm disp len →
    (modeOf mod = .registerDirect → len = 2) ∧ (modeOf mod = .displace8 → len = 3) ∧
    (modeOf mod = .displace16 → len = 4) ∧
    (modeOf mod = .memory → rm = 0b110#3 → len = 4 ∧
      ∃ lo hi, b[2]? = some lo ∧ b[3]? = some hi ∧
        rmOperand mod rm w disp = some (.direct (hi.toNat * 256 + lo.toNat))) ∧
    (modeOf mod = .memory → rm ≠ 0b110#3 → len = 2)

/-- R101: MOV r/m, reg: the rm operand is the destination and the reg operand the source. -/
def Obligations.MovRmRegResolvesOperands : Prop :=
  (∀ (w : Bool) (b1 : Byte) (tail : List Byte),
    let b0 : Byte := 0b1000100#7 ++ BitVec.ofBool w
    let b := b0 :: b1 :: tail
    let mod := b1.extractLsb' 6 2
    let reg := b1.extractLsb' 3 3
    let rm := b1.extractLsb' 0 3
    let len := 2 + dlen mod rm
    decode [b0] = .err (.truncatedInput 2 1) ∧
    (b.length < len → decode b = .err (.truncatedInput len b.length)) ∧
    (len ≤ b.length → ∃ disp dest, decode b = .ok (.movRmReg w mod reg rm disp) ∧
      DispAt b (dlen mod rm) disp ∧
      (recordMovRmReg w mod reg rm disp) = .rmReg false w mod reg rm disp len ∧
      rmOperand mod rm w disp = some dest ∧
      (recordMovRmReg w mod reg rm disp).dest = some dest ∧
      (recordMovRmReg w mod reg rm disp).src = some (.reg (regName reg w)) ∧
      (mod = 0b11#2 → rm = reg → dest = .reg (regName reg w)) ∧
      (mod = 0b00#2 → rm = 0b110#3 → ∃ lo hi, b[2]? = some lo ∧ b[3]? = some hi ∧
        dest = .direct (hi.toNat * 256 + lo.toNat)))) ∧
  (∀ signBy w base, operandText signBy w (.mem base (some (.byte 0#8))) = "[" ++ baseText base ++ "]" ∧
    operandText signBy w (.mem base (some (.half 0#16))) = "[" ++ baseText base ++ "]") ∧
  decode [0x89#8, 0xD8#8] = .ok (.movRmReg true 0b11#2 0b011#3 0b000#3 none) ∧
  recordText .field (recordMovRmReg true 0b11#2 0b011#3 0b000#3 none) = some "mov ax, bx"

/-- R102: MOV reg, r/m: the reg operand is the destination and the rm operand the source. The names of the
narrow codes 100 to 111 are the spec's general knowledge (G1, log 11). -/
def Obligations.MovRegRmResolvesOperands : Prop :=
  (∀ (w : Bool) (b1 : Byte) (tail : List Byte),
    let b0 : Byte := 0b1000101#7 ++ BitVec.ofBool w
    let b := b0 :: b1 :: tail
    let mod := b1.extractLsb' 6 2
    let reg := b1.extractLsb' 3 3
    let rm := b1.extractLsb' 0 3
    let len := 2 + dlen mod rm
    decode [b0] = .err (.truncatedInput 2 1) ∧
    (b.length < len → decode b = .err (.truncatedInput len b.length)) ∧
    (len ≤ b.length → ∃ disp src, decode b = .ok (.movRegRm w mod reg rm disp) ∧
      DispAt b (dlen mod rm) disp ∧
      (recordMovRegRm w mod reg rm disp) = .rmReg true w mod reg rm disp len ∧
      rmOperand mod rm w disp = some src ∧
      (recordMovRegRm w mod reg rm disp).dest = some (.reg (regName reg w)) ∧
      (recordMovRegRm w mod reg rm disp).src = some src ∧
      (mod = 0b11#2 → rm = reg → src = .reg (regName reg w)) ∧
      (mod = 0b00#2 → rm = 0b110#3 → ∃ lo hi, b[2]? = some lo ∧ b[3]? = some hi ∧
        src = .direct (hi.toNat * 256 + lo.toNat)))) ∧
  (∀ reg : BitVec 3, 4 ≤ reg.toNat → regName reg false ∈ [.ah, .ch, .dh, .bh]) ∧
  decode [0x8A#8, 0x00#8] = .ok (.movRegRm false 0b00#2 0b000#3 0b000#3 none) ∧
  recordText .field (recordMovRegRm false 0b00#2 0b000#3 0b000#3 none) = some "mov al, [bx + si]"

/-- R120: MOV reg, imm. The names of the narrow codes 100 to 111 are the spec's general knowledge (G1, log
11). -/
def Obligations.MovRegImmDecodesRecord : Prop :=
  (∀ (w : Bool) (reg : BitVec 3) (tail : List Byte),
    let b0 : Byte := 0b1011#4 ++ BitVec.ofBool w ++ reg
    let b := b0 :: tail
    let len := 2 + w.toNat
    (b.length < len → decode b = .err (.truncatedInput len b.length)) ∧
    (len ≤ b.length → ∃ imm, decode b = .ok (.movRegImm w reg imm) ∧ FieldAt b 1 w imm ∧
      recordMovRegImm w reg imm = .immReg w reg imm len ∧
      (recordMovRegImm w reg imm).dest = some (.reg (regName reg w)) ∧
      (recordMovRegImm w reg imm).src = some (.imm imm) ∧
      (recordMovRegImm w reg imm).simm = some (twosComplement imm))) ∧
  signedImm (.byte 0xFF#8) = -1 ∧ signedImm (.half 0x8000#16) = -32768 ∧ signedImm (.byte 0x7F#8) = 127 ∧
  (∀ reg : BitVec 3, 4 ≤ reg.toNat → regName reg false ∈ [.ah, .ch, .dh, .bh]) ∧
  decode [0xB8#8, 0x01#8] = .err (.truncatedInput 3 2) ∧
  decode [0xB8#8, 0x01#8, 0x00#8] = .ok (.movRegImm true 0b000#3 (.half 0x0001#16)) ∧
  recordText .field (recordMovRegImm true 0b000#3 (.half 0x0001#16)) = some "mov ax, 1"

/-- R140, with bits `b_1[5:3]` ignored by the spec's decision D8 (log 13): MOV r/m, imm. In the example's
line the base of rm = 011 is the spec's general knowledge (G3, log 12), and the signed decimal literal is the
spec's D16 (log 18). -/
def Obligations.MovRmImmDecodesRecord : Prop :=
  (∀ (w : Bool) (b1 : Byte) (tail : List Byte),
    let b0 : Byte := 0b1100011#7 ++ BitVec.ofBool w
    let b := b0 :: b1 :: tail
    let mod := b1.extractLsb' 6 2
    let rm := b1.extractLsb' 0 3
    let len := 2 + dlen mod rm + 1 + w.toNat
    decode [b0] = .err (.truncatedInput 2 1) ∧
    (b.length < len → decode b = .err (.truncatedInput len b.length)) ∧
    (len ≤ b.length → ∃ disp imm dest, decode b = .ok (.movRmImm w mod rm disp imm) ∧
      DispAt b (dlen mod rm) disp ∧ FieldAt b (2 + dlen mod rm) w imm ∧
      recordMovRmImm w mod rm disp imm = .immRm w mod rm disp imm len ∧
      rmOperand mod rm w disp = some dest ∧
      (recordMovRmImm w mod rm disp imm).dest = some dest ∧
      (recordMovRmImm w mod rm disp imm).src = some (.imm imm) ∧
      (mod = 0b11#2 → dest = .reg (regName rm w)))) ∧
  decode [0xC6#8, 0x03#8, 0x07#8] = .ok (.movRmImm false 0b00#2 0b011#3 none (.byte 0x07#8)) ∧
  recordText .field (recordMovRmImm false 0b00#2 0b011#3 none (.byte 0x07#8)) =
    some "mov [bp + di], byte 7"

/-- R160, R161: MOV AX, [addr]. That a = 0 makes memory the source is derived by the spec (N11, log 14), and
the decimal addresses of its lines are the spec's D16 (log 18). -/
def Obligations.MovAxMemDecodesRecord : Prop :=
  (∀ (w : Bool) (tail : List Byte),
    let b0 : Byte := 0b1010000#7 ++ BitVec.ofBool w
    let b := b0 :: tail
    let len := 2 + w.toNat
    (b.length < len → decode b = .err (.truncatedInput len b.length)) ∧
    (len ≤ b.length → ∃ addr, decode b = .ok (.movAxMem w addr) ∧ FieldAt b 1 w addr ∧
      recordMovAxMem w addr = .accMem false w addr len ∧
      (recordMovAxMem w addr).dest = some (.reg .ax) ∧
      (recordMovAxMem w addr).src = some (.direct addr.raw))) ∧
  decode [0xA1#8, 0xFB#8, 0x09#8] = .ok (.movAxMem true (.half 0x09FB#16)) ∧
  recordText .field (recordMovAxMem true (.half 0x09FB#16)) = some "mov ax, [2555]" ∧
  recordText .field (recordMovAxMem false (.byte 0x10#8)) = some "mov ax, [16]"

/-- R160, R162: MOV [addr], AX. That a = 1 makes memory the destination is the spec's inference from the
flag's name (N11, G9; log 14), and the decimal addresses of its lines are the spec's D16 (log 18). -/
def Obligations.MovMemAxDecodesRecord : Prop :=
  (∀ (w : Bool) (tail : List Byte),
    let b0 : Byte := 0b1010001#7 ++ BitVec.ofBool w
    let b := b0 :: tail
    let len := 2 + w.toNat
    (b.length < len → decode b = .err (.truncatedInput len b.length)) ∧
    (len ≤ b.length → ∃ addr, decode b = .ok (.movMemAx w addr) ∧ FieldAt b 1 w addr ∧
      recordMovMemAx w addr = .accMem true w addr len ∧
      (recordMovMemAx w addr).dest = some (.direct addr.raw) ∧
      (recordMovMemAx w addr).src = some (.reg .ax))) ∧
  decode [0xA3#8, 0x0F#8, 0x00#8] = .ok (.movMemAx true (.half 0x000F#16)) ∧
  recordText .field (recordMovMemAx true (.half 0x000F#16)) = some "mov [15], ax" ∧
  recordText .field (recordMovMemAx false (.byte 0xFF#8)) = some "mov [255], ax"

/-- R224, R223 (the spec's D4 and D5, logs 15 and 16): the checks run in order, and the result codes are 0 for
an instruction, 1 for TruncatedInput, 2 for UnsupportedOpcode. -/
def Obligations.DecodeErrorPriority : Prop :=
  ∀ (b0 : Byte) (tail : List Byte),
    let r := decode (b0 :: tail)
    (matchForm b0 = none ↔ resultCode r = some 2) ∧
    (resultCode r = some 0 ∨ resultCode r = some 1 ∨ resultCode r = some 2) ∧
    (∀ i, r = .ok i → resultCode r = some 0) ∧
    (∀ need avail, r = .err (.truncatedInput need avail) →
      resultCode r = some 1 ∧ (matchForm b0).isSome ∧ avail = tail.length + 1 ∧ avail < need ∧
        ((matchForm b0 = some .rmReg ∨ matchForm b0 = some .immRm) → tail = [] → need = 2)) ∧
    (∀ raw, r = .err (.unsupportedOpcode raw) → resultCode r = some 2 ∧ raw = b0 ∧ matchForm b0 = none)

/-- R21, R256 (D15): bytes beyond the instruction have no effect on its decode. -/
def Obligations.BytesBeyondInstructionHaveNoEffect : Prop :=
  ∀ (b extra : List Byte) (i : Instr), decode b = .ok i → decode (b.take i.len ++ extra) = .ok i

/-- R63 (D8, log 13): form 3 ignores bits 5 to 3 of its second byte. -/
def Obligations.FormThreeIgnoresMiddleBits : Prop :=
  ∀ (w : Bool) (mod : BitVec 2) (x y rm : BitVec 3) (tail : List Byte),
    decode ((0b1100011#7 ++ BitVec.ofBool w) :: (mod ++ x ++ rm) :: tail) =
      decode ((0b1100011#7 ++ BitVec.ofBool w) :: (mod ++ y ++ rm) :: tail)

/-- R61 to R64, R78: the encoding of every well-formed instruction decodes to it, whatever follows. -/
def Obligations.DecodeInvertsEncode : Prop :=
  ∀ (i : Instr) (extra : List Byte), i.wellFormed = true → decode (encode i ++ extra) = .ok i

/-- R61 to R64, R78: what decodes is well formed, and its bytes are its encoding, but for the three ignored
bits of form 3 (D8). -/
def Obligations.DecodedBytesAreTheEncoding : Prop :=
  ∀ (b : List Byte) (i : Instr), decode b = .ok i →
    i.wellFormed = true ∧ i.len ≤ b.length ∧
    (i.form ≠ .immRm → b.take i.len = encode i) ∧
    (i.form = .immRm → (b.take i.len).modify 1 (· &&& 0xC7#8) = encode i)

/-- Sections 1 and 3 of 95_test_vectors.md: words written out from the encodings decode to the instructions
they stand for. -/
def Obligations.WorkedExampleWordsDecode : Prop :=
  decode [0x89#8, 0xD8#8] = .ok (.movRmReg true 0b11#2 0b011#3 0b000#3 none) ∧
  decode [0x8A#8, 0x00#8] = .ok (.movRegRm false 0b00#2 0b000#3 0b000#3 none) ∧
  decode [0x8B#8, 0x1E#8, 0x34#8, 0x12#8] = .ok (.movRegRm true 0b00#2 0b011#3 0b110#3 (some (.half 0x1234#16))) ∧
  decode [0xB8#8, 0x01#8, 0x00#8] = .ok (.movRegImm true 0b000#3 (.half 0x0001#16)) ∧
  decode [0xC7#8, 0x85#8, 0x85#8, 0x03#8, 0x5B#8, 0x01#8] =
    .ok (.movRmImm true 0b10#2 0b101#3 (some (.half 0x0385#16)) (.half 0x015B#16)) ∧
  decode [0xA1#8, 0xFB#8, 0x09#8] = .ok (.movAxMem true (.half 0x09FB#16)) ∧
  decode [0xA3#8, 0x0F#8, 0x00#8] = .ok (.movMemAx true (.half 0x000F#16))

/-! ## What each instruction does -/

/-- R101, R102, R201: MOV r/m, reg and MOV reg, r/m complete in every running state whose window holds
them: the record is appended, the offset advances, and nothing else changes. -/
def Obligations.FormOneRecordsAndAdvances : Prop :=
  ∀ (w : Bool) (mod : BitVec 2) (reg rm : BitVec 3) (disp : Option Disp) (s : State), s.Running →
    2 + dlen mod rm ≤ min 6 (s.N - s.off / 8) →
    exec (.movRmReg w mod reg rm disp) s =
        .next { s with
          out := s.out ++ [(s.off / 8, .rmReg false w mod reg rm disp (2 + dlen mod rm))]
          off := s.off + 8 * (2 + dlen mod rm) } ∧
      exec (.movRegRm w mod reg rm disp) s =
        .next { s with
          out := s.out ++ [(s.off / 8, .rmReg true w mod reg rm disp (2 + dlen mod rm))]
          off := s.off + 8 * (2 + dlen mod rm) }

/-- R120, R201: MOV reg, imm completes in every running state whose window holds it. -/
def Obligations.MovRegImmRecordsAndAdvances : Prop :=
  ∀ (w : Bool) (reg : BitVec 3) (imm : Imm) (s : State), s.Running →
    2 + w.toNat ≤ min 6 (s.N - s.off / 8) →
    exec (.movRegImm w reg imm) s =
      .next { s with
        out := s.out ++ [(s.off / 8, .immReg w reg imm (2 + w.toNat))]
        off := s.off + 8 * (2 + w.toNat) }

/-- R140, R201: MOV r/m, imm completes in every running state whose window holds it. -/
def Obligations.MovRmImmRecordsAndAdvances : Prop :=
  ∀ (w : Bool) (mod : BitVec 2) (rm : BitVec 3) (disp : Option Disp) (imm : Imm) (s : State), s.Running →
    2 + dlen mod rm + (1 + w.toNat) ≤ min 6 (s.N - s.off / 8) →
    exec (.movRmImm w mod rm disp imm) s =
      .next { s with
        out := s.out ++ [(s.off / 8, .immRm w mod rm disp imm (2 + dlen mod rm + (1 + w.toNat)))]
        off := s.off + 8 * (2 + dlen mod rm + (1 + w.toNat)) }

/-- R161, R162, R201: MOV AX, [addr] and MOV [addr], AX complete in every running state whose window holds
them. -/
def Obligations.FormFourRecordsAndAdvances : Prop :=
  ∀ (w : Bool) (addr : Addr) (s : State), s.Running → 2 + w.toNat ≤ min 6 (s.N - s.off / 8) →
    exec (.movAxMem w addr) s =
        .next { s with
          out := s.out ++ [(s.off / 8, .accMem false w addr (2 + w.toNat))]
          off := s.off + 8 * (2 + w.toNat) } ∧
      exec (.movMemAx w addr) s =
        .next { s with
          out := s.out ++ [(s.off / 8, .accMem true w addr (2 + w.toNat))]
          off := s.off + 8 * (2 + w.toNat) }

/-- The model's log 8, from R76 and R202: each of the six instructions, run where the window is shorter
than it, latches TruncatedInput and changes nothing else. -/
def Obligations.InstructionLongerThanWindowTruncates : Prop :=
  ∀ (i : Instr) (s : State), s.Running → min 6 (s.N - s.off / 8) < i.len →
    exec i s = .next { s with halt := some ⟨.truncatedInput, s.off / 8, none⟩ }

/-- The frame of all six instructions (R34, R51, R201, R202): no byte of the buffer and no parameter
changes; where the record is accepted the latch is unchanged and the output only grows by it. That a meaning
run where the window is too short leaves output and offset unchanged is the model's log 8. -/
def Obligations.InstructionFrame : Prop :=
  ∀ (i : Instr) (s t : State), exec i s = .next t →
    t.buf = s.buf ∧ (∀ a, readByte t.buf a = readByte s.buf a) ∧ t.N = s.N ∧
    t.dispSignBy = s.dispSignBy ∧ t.verbose = s.verbose ∧
    (i.len ≤ min 6 (s.N - s.off / 8) → t.halt = s.halt ∧ t.out = s.out ++ [(s.off / 8, i.record)]) ∧
    (min 6 (s.N - s.off / 8) < i.len → t.out = s.out ∧ t.off = s.off)

/-- The model's log 21: after withFetchWord the next step runs exactly the instruction the decoder reads
from that word, and it completes; the other registers, the parameters and the bytes outside the six are
unchanged. -/
def Obligations.FetchWordIsRunByNextStep : Prop :=
  ∀ (s : State) (nbits w : Nat) (i : Instr), decodeTableWord nbits w = some i →
    let s' := s.withFetchWord nbits w
    step s' = exec i s' ∧ (∃ t, exec i s' = .next t ∧ t.out = s.out ++ [(s.off / 8, i.record)]) ∧
    s'.off = s.off ∧ s'.out = s.out ∧ s'.dispSignBy = s.dispSignBy ∧ s'.verbose = s.verbose ∧
    (∀ a, a < s.off / 8 ∨ s.off / 8 + 6 ≤ a → readByte s'.buf a = readByte s.buf a)

/-! ## Runs -/

/-- R204: every run makes progress by two to six bytes a successful step and ends after at most N/2 + 1
steps. -/
def Obligations.EveryRunEnds : Prop :=
  (∀ s t : State, Inv s → step s = .next t → t.halt = none →
    s.off + 16 ≤ t.off ∧ t.off ≤ s.off + 48 ∧ t.off ≤ 8 * t.N ∧ t.off % 8 = 0) ∧
  (∀ s : State, Inv s → ∃ k t, k ≤ s.N / 2 + 1 ∧ Host.Core.run Sys2Proof.core k s = .next t ∧ Ended t)

/-- R201, R202, R205, R207: the run on any input ends with exactly the records and the error that decoding
the input from its first byte, each instruction behind the one before, gives. -/
def Obligations.RunComputesLinearSweep : Prop :=
  ∀ (bytes : List Byte) (signBy : DispSignBy) (verbose : Bool),
    ∃ k t, Host.Core.run Sys2Proof.core k (startRun bytes signBy verbose) = .next t ∧ Ended t ∧
      t.out = (sweep bytes.length 0 bytes).1 ∧ t.halt = (sweep bytes.length 0 bytes).2

/-- R201, R205, R207: the run on any assembled list of well-formed instructions finishes in one step an
instruction, and its output is that list, each record at the sum of the lengths before it. -/
def Obligations.AssembledRunListsItsInstructions : Prop :=
  ∀ (is : List Instr) (signBy : DispSignBy) (verbose : Bool), (∀ i ∈ is, i.wellFormed = true) →
    ∃ t, Host.Core.run Sys2Proof.core is.length (startRun (is.flatMap encode) signBy verbose) = .next t ∧
      t.Finished ∧ t.out = layOut 0 is

/-- R235: the failure report of a failed run. That its offset is the start of the failing instruction is
the spec's decision D7 (log 17). -/
def Obligations.FailureReportNamesKindOffsetRaw : Prop :=
  ∀ s : State, Inv s → s.Failed →
    ∃ b b0, windowAt s (s.off / 8) = .ok b ∧ b[0]? = some b0 ∧
      ((∃ need avail, decode b = .err (.truncatedInput need avail) ∧
          s.failureReport = some ⟨.truncatedInput, s.off / 8, none⟩) ∨
        (decode b = .err (.unsupportedOpcode b0) ∧
          s.failureReport = some ⟨.unsupportedOpcode, s.off / 8, some b0⟩))

/-! ## Text -/

/-- R181: the spelling of the sixteen registers. -/
def Obligations.RegisterSpelling : Prop :=
  ([.al, .cl, .dl, .bl, .ah, .ch, .dh, .bh, .ax, .cx, .dx, .bx, .sp, .bp, .si, .di] : List Reg).map regText =
    ["al", "cl", "dl", "bl", "ah", "ch", "dh", "bh", "ax", "cx", "dx", "bx", "sp", "bp", "si", "di"]

/-- R182, R184: a memory operand is its base, and with a displacement its base and the signed suffix. -/
def Obligations.MemoryOperandText : Prop :=
  (∀ signBy w base, operandText signBy w (.mem base none) = "[" ++ baseText base ++ "]") ∧
  ([.bxSi, .bxDi, .bpSi, .bpDi, .si, .di, .bx, .bp] : List Base).map baseText =
    ["bx + si", "bx + di", "bp + si", "bp + di", "si", "di", "bx", "bp"] ∧
  (∀ signBy w base d,
    let k := signedDisp signBy w d
    operandText signBy w (.mem base (some d)) =
      "[" ++ baseText base ++
        (if k = 0 then "" else if 0 < k then " + " ++ toString k else " - " ++ toString (-k)) ++ "]")

/-- R185: the form-2 literal is the signed decimal of the immediate, without a keyword. -/
def Obligations.FormTwoLiteralText : Prop :=
  ∀ (signBy : DispSignBy) (w : Bool) (reg : BitVec 3) (imm : Imm),
    recordText signBy (recordMovRegImm w reg imm) =
      some ("mov " ++ regText (regName reg w) ++ ", " ++ toString (twosComplement imm))

/-- R183, R186, R187 (the spec's D16, log 18): decimal addresses, and the size keyword in front of a form-3
literal for every mod. -/
def Obligations.AddressAndKeywordText : Prop :=
  (∀ signBy w a, operandText signBy w (.direct a) = "[" ++ toString a ++ "]") ∧
  (∀ signBy w mod rm disp imm dest, rmOperand mod rm w disp = some dest →
    recordText signBy (recordMovRmImm w mod rm disp imm) =
      some ("mov " ++ operandText signBy w dest ++ ", " ++ (if w then "word" else "byte") ++ " " ++
        toString (twosComplement imm))) ∧
  (∀ signBy w addr, recordText signBy (recordMovAxMem w addr) = some ("mov ax, [" ++ toString addr.raw ++ "]")) ∧
  (∀ signBy w addr, recordText signBy (recordMovMemAx w addr) = some ("mov [" ++ toString addr.raw ++ "], ax"))

/-- R180, R188, R189: the text of a run that meets the invariant is the header and one line per record; a
successful step adds the line of its record and a failing step adds none. A form-1 line is its two operands
in the order of its direction flag, each read with the instruction's w bit, without a keyword. -/
def Obligations.TextGrowsByOneLinePerRecord : Prop :=
  (∀ s : State, Inv s → ∃ ls, s.text = some ("bits 16" :: ls) ∧ ls.length = s.out.length) ∧
  (∀ s t : State, Inv s → step s = .next t →
    (t.Failed → t.text = s.text) ∧
    (t.halt = none → ∃ I ls dest src, t.out = s.out ++ [(s.off / 8, I)] ∧ s.text = some ls ∧
      I.dest = some dest ∧ I.src = some src ∧
      t.text = some (ls ++ ["mov " ++ operandText s.dispSignBy I.wide dest ++ ", " ++ sourceKeyword I ++
        operandText s.dispSignBy I.wide src]))) ∧
  (∀ signBy w mod reg rm disp o, rmOperand mod rm w disp = some o →
    recordText signBy (recordMovRmReg w mod reg rm disp) =
        some ("mov " ++ operandText signBy w o ++ ", " ++ regText (regName reg w)) ∧
      recordText signBy (recordMovRegRm w mod reg rm disp) =
        some ("mov " ++ regText (regName reg w) ++ ", " ++ operandText signBy w o)) ∧
  (∀ signBy w r, operandText signBy w (.reg r) = regText r)

/-- R180 (the spec's D16, and for the header's newline the model's inference, log 18): the text as
characters is each of its lines, the header first, ended by a newline; a successful step adds its record's
line and newline, and a failing step adds nothing. That the output is empty at reset is the spec's D18 (log
2). -/
def Obligations.TextStreamTerminatesEachLine : Prop :=
  State.reset.textStream = some "bits 16\n" ∧
  (∀ (s : State) (ls : List String), s.text = some ls →
    ∃ txt, s.textStream = some txt ∧ txt.toList = ls.flatMap fun l => l.toList ++ ['\n']) ∧
  (∀ s t : State, Inv s → step s = .next t →
    (t.Failed → t.textStream = s.textStream) ∧
    (t.halt = none → ∃ I txt dest src, t.out = s.out ++ [(s.off / 8, I)] ∧ s.textStream = some txt ∧
      I.dest = some dest ∧ I.src = some src ∧
      t.textStream = some (txt ++ ("mov " ++ operandText s.dispSignBy I.wide dest ++ ", " ++
        sourceKeyword I ++ operandText s.dispSignBy I.wide src ++ "\n"))))

/-! ## Derived outputs -/

/-- R24: the derived outputs of a record: its mode, the register of its reg field, its rm operand
descriptor. That a form without the field has no such output is the spec's decision D12 (log 27). A decoded
record of form 1 or 3 has a descriptor. -/
def Obligations.DerivedOutputsOfRecords : Prop :=
  (∀ d w mod reg rm disp len,
    let I := Record.rmReg d w mod reg rm disp len
    I.mode = some (modeOf mod) ∧ I.regOperand = some (regName reg w) ∧
      I.rmDescriptor = rmOperand mod rm w disp) ∧
  (∀ w reg imm len,
    let I := Record.immReg w reg imm len
    I.mode = none ∧ I.regOperand = some (regName reg w) ∧ I.rmDescriptor = none) ∧
  (∀ w mod rm disp imm len,
    let I := Record.immRm w mod rm disp imm len
    I.mode = some (modeOf mod) ∧ I.regOperand = none ∧ I.rmDescriptor = rmOperand mod rm w disp) ∧
  (∀ a w addr len,
    let I := Record.accMem a w addr len
    I.mode = none ∧ I.regOperand = none ∧ I.rmDescriptor = none) ∧
  (∀ (b : List Byte) (i : Instr), decode b = .ok i → i.form = .rmReg ∨ i.form = .immRm →
    i.record.mode.isSome ∧ i.record.rmDescriptor.isSome)
end

