-- ==== Sys2Proof/Laws/Decode.lean ====
section
/-! SUPPORT. Small laws of the field readers, the decode's checks and the encoder. -/

namespace Sys2Proof

/-! ## Byte order (R42) -/

@[simp] theorem le16_toNat (lo hi : Byte) : (le16 lo hi).toNat = hi.toNat * 256 + lo.toNat := by
  have := lo.isLt; have := hi.isLt
  rw [le16, BitVec.toNat_ofNat]; omega

@[simp] theorem loByte_toNat (h : Half) : (loByte h).toNat = h.toNat % 256 := by
  simp [loByte, BitVec.extractLsb'_toNat]

@[simp] theorem hiByte_toNat (h : Half) : (hiByte h).toNat = h.toNat / 256 := by
  have := h.isLt
  simp [hiByte, BitVec.extractLsb'_toNat, Nat.shiftRight_eq_div_pow]; omega

@[simp] theorem loByte_le16 (lo hi : Byte) : loByte (le16 lo hi) = lo := by
  apply BitVec.eq_of_toNat_eq; have := lo.isLt; simp; omega

@[simp] theorem hiByte_le16 (lo hi : Byte) : hiByte (le16 lo hi) = hi := by
  apply BitVec.eq_of_toNat_eq; have := lo.isLt; simp; omega

@[simp] theorem le16_loByte_hiByte (h : Half) : le16 (loByte h) (hiByte h) = h := by
  apply BitVec.eq_of_toNat_eq; simp; omega

/-! ## The mod/reg/rm byte (R62) -/

@[simp] theorem modField_modRegRm (mod : BitVec 2) (reg rm : BitVec 3) : modField (modRegRm mod reg rm) = mod := by
  revert mod reg rm; decide
@[simp] theorem regField_modRegRm (mod : BitVec 2) (reg rm : BitVec 3) : regField (modRegRm mod reg rm) = reg := by
  revert mod reg rm; decide
@[simp] theorem rmField_modRegRm (mod : BitVec 2) (reg rm : BitVec 3) : rmField (modRegRm mod reg rm) = rm := by
  revert mod reg rm; decide
theorem modRegRm_fields (b : Byte) : modRegRm (modField b) (regField b) (rmField b) = b := by
  revert b; decide

/-! ## The decode's checks -/

theorem checkLength_eq_ok {b : List Byte} {len : Nat} {k : DecodeResult} {i : Instr}
    (h : checkLength b len k = .ok i) : len ≤ b.length ∧ k = .ok i := by
  unfold checkLength at h
  split at h
  · cases h
  · exact ⟨not_lt.1 ‹_›, h⟩

theorem checkLength_of_le {b : List Byte} {len : Nat} (h : len ≤ b.length) (k : DecodeResult) :
    checkLength b len k = k := if_neg (not_lt.2 h)

theorem checkLength_of_lt {b : List Byte} {len : Nat} (h : b.length < len) (k : DecodeResult) :
    checkLength b len k = .err (.truncatedInput len b.length) := if_pos h

theorem orRefuse_eq_ok {α : Type} {r : Option α} {k : α → DecodeResult} {i : Instr}
    (h : orRefuse r k = .ok i) : ∃ v, r = some v ∧ k v = .ok i := by
  cases r with
  | none => cases h
  | some v => exact ⟨v, rfl, h⟩

@[simp] theorem orRefuse_some {α : Type} (v : α) (k : α → DecodeResult) : orRefuse (some v) k = k v := rfl

@[simp] theorem decode_nil : decode [] = .refusedRead := rfl

/-! ## Sizes -/

theorem size_pos (f : Sized) : 1 ≤ f.size := by cases f <;> simp [Sized.size]

@[simp] theorem encodeSized_length (f : Sized) : (encodeSized f).length = f.size := by cases f <;> rfl

@[simp] theorem encodeDisp_length (d : Option Disp) : (encodeDisp d).length = sizeOrZero d := by
  cases d <;> simp [encodeDisp, sizeOrZero]

theorem dlen_le_two (mod : BitVec 2) (rm : BitVec 3) : dlen mod rm ≤ 2 := by
  revert mod rm; decide

theorem dispFits_iff {mod : BitVec 2} {rm : BitVec 3} {d : Option Disp} :
    dispFits mod rm d = true ↔ sizeOrZero d = dlen mod rm := by simp [dispFits]

theorem widthFits_iff {w : Bool} {f : Sized} : widthFits w f = true ↔ f.size = 1 + w.toNat := by
  simp [widthFits]

/-! ## Reads inside the window succeed -/

theorem dispVal_total {b : List Byte} {dl} (h : dl ≤ 2) (hl : 2 + dl ≤ b.length) : ∃ d, dispVal b dl = some d := by
  match dl, h with
  | 0, _ => exact ⟨_, rfl⟩
  | 1, _ =>
    have h2 : b[2]? = some b[2] := List.getElem?_eq_getElem (by omega)
    exact ⟨some (.byte b[2]), by simp [dispVal, sizedAt, h2]⟩
  | 2, _ =>
    have h2 : b[2]? = some b[2] := List.getElem?_eq_getElem (by omega)
    have h3 : b[3]? = some b[3] := List.getElem?_eq_getElem (by omega)
    exact ⟨some (.half (le16 b[2] b[3])), by simp [dispVal, sizedAt, h2, h3]⟩

theorem immVal_total {b : List Byte} {k w} (hl : k + 1 + w.toNat ≤ b.length) : ∃ d, immVal b k w = some d := by
  cases w with
  | false =>
    have h2 : b[k]? = some b[k] := List.getElem?_eq_getElem (by simp at hl; omega)
    exact ⟨.byte b[k], by simp [immVal, sizedAt, h2]⟩
  | true =>
    have h2 : b[k]? = some b[k] := List.getElem?_eq_getElem (by simp at hl; omega)
    have h3 : b[k+1]? = some b[k+1] := List.getElem?_eq_getElem (by simp at hl; omega)
    exact ⟨.half (le16 b[k] b[k+1]), by simp [immVal, sizedAt, h2, h3]⟩

/-! ## What the decode function does, form by form (R78) -/

theorem decode_cons (b0 : Byte) (tail : List Byte) : decode (b0 :: tail) =
    match matchForm b0 with
    | none => .err (.unsupportedOpcode b0)
    | some .rmReg => decodeRmReg (b0 :: tail) b0
    | some .immReg => decodeImmReg (b0 :: tail) b0
    | some .immRm => decodeImmRm (b0 :: tail) b0
    | some .accMem => decodeAccMem (b0 :: tail) b0 := rfl

theorem withSecondByte_of_cons (b0 b1 : Byte) (tail : List Byte) (k : Byte → DecodeResult) :
    withSecondByte (b0 :: b1 :: tail) k = k b1 := by
  rw [withSecondByte, checkLength_of_le (by simp)]; rfl

theorem withSecondByte_eq_ok {b0 : Byte} {tail : List Byte} {k : Byte → DecodeResult} {i : Instr}
    (h : withSecondByte (b0 :: tail) k = .ok i) : ∃ b1 t, tail = b1 :: t ∧ k b1 = .ok i := by
  obtain ⟨_, h⟩ := checkLength_eq_ok h
  obtain ⟨b1, h1, h⟩ := orRefuse_eq_ok h
  cases tail with
  | nil => simp at h1
  | cons b1' t => simp at h1; exact ⟨b1', t, rfl, h1 ▸ h⟩

/-- The RM_REG arm on a window that holds `b_1`. -/
theorem decodeRmReg_cons (b0 b1 : Byte) (tail : List Byte) :
    let b := b0 :: b1 :: tail
    let len := 2 + dlen (modField b1) (rmField b1)
    (b.length < len → decodeRmReg b b0 = .err (.truncatedInput len b.length)) ∧
    (len ≤ b.length → ∃ disp, dispVal b (dlen (modField b1) (rmField b1)) = some disp ∧
      decodeRmReg b b0 = .ok (if directionBit b0
        then .movRegRm (wideBit b0) (modField b1) (regField b1) (rmField b1) disp
        else .movRmReg (wideBit b0) (modField b1) (regField b1) (rmField b1) disp)) := by
  intro b len
  refine ⟨fun h => ?_, fun h => ?_⟩
  · rw [decodeRmReg, withSecondByte_of_cons]; exact checkLength_of_lt h _
  · obtain ⟨d, hd⟩ := dispVal_total (dlen_le_two (modField b1) (rmField b1)) h
    refine ⟨d, hd, ?_⟩
    rw [decodeRmReg, withSecondByte_of_cons, checkLength_of_le (show lenRmReg (modField b1) (rmField b1) ≤ b.length from h), hd, orRefuse_some]
    split <;> rfl

/-- The IMM_REG arm. -/
theorem decodeImmReg_cons (b0 : Byte) (tail : List Byte) :
    let b := b0 :: tail
    let len := 2 + (wideBitImmReg b0).toNat
    (b.length < len → decodeImmReg b b0 = .err (.truncatedInput len b.length)) ∧
    (len ≤ b.length → ∃ imm, immVal b 1 (wideBitImmReg b0) = some imm ∧
      decodeImmReg b b0 = .ok (.movRegImm (wideBitImmReg b0) (regFieldImmReg b0) imm)) := by
  intro b len
  refine ⟨fun h => checkLength_of_lt h _, fun h => ?_⟩
  obtain ⟨m, hm⟩ := immVal_total (b := b) (k := 1) (w := wideBitImmReg b0) (by simpa [len] using h)
  refine ⟨m, hm, ?_⟩
  rw [decodeImmReg, checkLength_of_le (show lenImmReg (wideBitImmReg b0) ≤ b.length from h), hm, orRefuse_some]

/-- The IMM_RM arm on a window that holds `b_1`. -/
theorem decodeImmRm_cons (b0 b1 : Byte) (tail : List Byte) :
    let b := b0 :: b1 :: tail
    let len := 2 + dlen (modField b1) (rmField b1) + (1 + (wideBit b0).toNat)
    (b.length < len → decodeImmRm b b0 = .err (.truncatedInput len b.length)) ∧
    (len ≤ b.length → ∃ disp imm, dispVal b (dlen (modField b1) (rmField b1)) = some disp ∧
      immVal b (2 + dlen (modField b1) (rmField b1)) (wideBit b0) = some imm ∧
      decodeImmRm b b0 = .ok (.movRmImm (wideBit b0) (modField b1) (rmField b1) disp imm)) := by
  intro b len
  refine ⟨fun h => ?_, fun h => ?_⟩
  · rw [decodeImmRm, withSecondByte_of_cons]; exact checkLength_of_lt h _
  · obtain ⟨d, hd⟩ := dispVal_total (b := b) (dlen_le_two (modField b1) (rmField b1)) (by omega)
    obtain ⟨m, hm⟩ := immVal_total (b := b) (k := 2 + dlen (modField b1) (rmField b1)) (w := wideBit b0)
      (by omega)
    refine ⟨d, m, hd, hm, ?_⟩
    rw [decodeImmRm, withSecondByte_of_cons, checkLength_of_le (show lenImmRm (wideBit b0) (modField b1) (rmField b1) ≤ b.length from h), hd, orRefuse_some, hm, orRefuse_some]

/-- The ACC_MEM arm. -/
theorem decodeAccMem_cons (b0 : Byte) (tail : List Byte) :
    let b := b0 :: tail
    let len := 2 + (wideBit b0).toNat
    (b.length < len → decodeAccMem b b0 = .err (.truncatedInput len b.length)) ∧
    (len ≤ b.length → ∃ addr, immVal b 1 (wideBit b0) = some addr ∧
      decodeAccMem b b0 =
        .ok (if directionBit b0 then .movMemAx (wideBit b0) addr else .movAxMem (wideBit b0) addr)) := by
  intro b len
  refine ⟨fun h => checkLength_of_lt h _, fun h => ?_⟩
  obtain ⟨m, hm⟩ := immVal_total (b := b) (k := 1) (w := wideBit b0) (by simpa [len] using h)
  refine ⟨m, hm, ?_⟩
  rw [decodeAccMem, checkLength_of_le (show lenAccMem (wideBit b0) ≤ b.length from h), hm, orRefuse_some]
  split <;> rfl

/-- All that a successful decode can be. -/
theorem decode_ok_cases {b : List Byte} {i : Instr} (h : decode b = .ok i) :
    (∃ b0 b1 tail disp, b = b0 :: b1 :: tail ∧ matchForm b0 = some .rmReg ∧
      2 + dlen (modField b1) (rmField b1) ≤ b.length ∧ dispVal b (dlen (modField b1) (rmField b1)) = some disp ∧
      i = if directionBit b0
        then .movRegRm (wideBit b0) (modField b1) (regField b1) (rmField b1) disp
        else .movRmReg (wideBit b0) (modField b1) (regField b1) (rmField b1) disp) ∨
    (∃ b0 tail imm, b = b0 :: tail ∧ matchForm b0 = some .immReg ∧ 2 + (wideBitImmReg b0).toNat ≤ b.length ∧
      immVal b 1 (wideBitImmReg b0) = some imm ∧ i = .movRegImm (wideBitImmReg b0) (regFieldImmReg b0) imm) ∨
    (∃ b0 b1 tail disp imm, b = b0 :: b1 :: tail ∧ matchForm b0 = some .immRm ∧
      2 + dlen (modField b1) (rmField b1) + (1 + (wideBit b0).toNat) ≤ b.length ∧
      dispVal b (dlen (modField b1) (rmField b1)) = some disp ∧
      immVal b (2 + dlen (modField b1) (rmField b1)) (wideBit b0) = some imm ∧
      i = .movRmImm (wideBit b0) (modField b1) (rmField b1) disp imm) ∨
    (∃ b0 tail addr, b = b0 :: tail ∧ matchForm b0 = some .accMem ∧ 2 + (wideBit b0).toNat ≤ b.length ∧
      immVal b 1 (wideBit b0) = some addr ∧
      i = if directionBit b0 then .movMemAx (wideBit b0) addr else .movAxMem (wideBit b0) addr) := by
  cases b with
  | nil => cases h
  | cons b0 tail =>
    rw [decode_cons] at h
    split at h
    · cases h
    · next hm =>
      obtain ⟨b1, t, rfl, h⟩ := withSecondByte_eq_ok h
      obtain ⟨hl, h⟩ := checkLength_eq_ok h
      obtain ⟨d, hd, h⟩ := orRefuse_eq_ok h
      exact .inl ⟨b0, b1, t, d, rfl, hm, hl, hd, by split at h <;> cases h <;> simp_all⟩
    · next hm =>
      obtain ⟨hl, h⟩ := checkLength_eq_ok h
      obtain ⟨m, hi, h⟩ := orRefuse_eq_ok h
      cases h
      exact .inr (.inl ⟨b0, tail, m, rfl, hm, hl, hi, rfl⟩)
    · next hm =>
      obtain ⟨b1, t, rfl, h⟩ := withSecondByte_eq_ok h
      obtain ⟨hl, h⟩ := checkLength_eq_ok h
      obtain ⟨d, hd, h⟩ := orRefuse_eq_ok h
      obtain ⟨m, hi, h⟩ := orRefuse_eq_ok h
      cases h
      exact .inr (.inr (.inl ⟨b0, b1, t, d, m, rfl, hm, hl, hd, hi, rfl⟩))
    · next hm =>
      obtain ⟨hl, h⟩ := checkLength_eq_ok h
      obtain ⟨m, hi, h⟩ := orRefuse_eq_ok h
      exact .inr (.inr (.inr ⟨b0, tail, m, rfl, hm, hl, hi, by split at h <;> cases h <;> simp_all⟩))

/-- The length is at most the window's. -/
theorem decode_len {b : List Byte} {i : Instr} (h : decode b = .ok i) : i.len ≤ b.length := by
  rcases decode_ok_cases h with ⟨b0, b1, t, d, rfl, _, hl, _, rfl⟩ | ⟨b0, t, m, rfl, _, hl, _, rfl⟩ |
    ⟨b0, b1, t, d, m, rfl, _, hl, _, _, rfl⟩ | ⟨b0, t, m, rfl, _, hl, _, rfl⟩
  · split <;> exact hl
  · exact hl
  · exact hl
  · split <;> exact hl

end Sys2Proof
end

