-- ==== Sys2Proof/Laws/State.lean ====
section
/-! SUPPORT. What each update of the state does to each field, true by definition. -/

namespace Sys2Proof.Machine

/-! ## accept (R201) -/

@[simp] theorem accept_buf (I : Record) (s : State) : (accept I s).buf = s.buf := rfl
@[simp] theorem accept_N (I : Record) (s : State) : (accept I s).N = s.N := rfl
@[simp] theorem accept_dispSignBy (I : Record) (s : State) : (accept I s).dispSignBy = s.dispSignBy := rfl
@[simp] theorem accept_verbose (I : Record) (s : State) : (accept I s).verbose = s.verbose := rfl
@[simp] theorem accept_off (I : Record) (s : State) : (accept I s).off = s.off + 8 * I.len := rfl
@[simp] theorem accept_halt (I : Record) (s : State) : (accept I s).halt = s.halt := rfl
@[simp] theorem accept_out (I : Record) (s : State) : (accept I s).out = s.out ++ [(s.pos, I)] := rfl

/-! ## takeError (R202) -/

@[simp] theorem takeError_buf (e : DecodeError) (s : State) : (takeError e s).buf = s.buf := rfl
@[simp] theorem takeError_N (e : DecodeError) (s : State) : (takeError e s).N = s.N := rfl
@[simp] theorem takeError_dispSignBy (e : DecodeError) (s : State) :
    (takeError e s).dispSignBy = s.dispSignBy := rfl
@[simp] theorem takeError_verbose (e : DecodeError) (s : State) : (takeError e s).verbose = s.verbose := rfl
@[simp] theorem takeError_off (e : DecodeError) (s : State) : (takeError e s).off = s.off := rfl
@[simp] theorem takeError_halt (e : DecodeError) (s : State) :
    (takeError e s).halt = some ⟨errorKind e, s.pos, errorRaw e⟩ := rfl
@[simp] theorem takeError_out (e : DecodeError) (s : State) : (takeError e s).out = s.out := rfl

/-! ## startRun (R250) -/

@[simp] theorem startRun_buf (l : List Byte) (d : DispSignBy) (v : Bool) :
    (startRun l d v).buf = cellsFrom 0 l := rfl
@[simp] theorem startRun_N (l : List Byte) (d : DispSignBy) (v : Bool) : (startRun l d v).N = l.length := rfl
@[simp] theorem startRun_dispSignBy (l : List Byte) (d : DispSignBy) (v : Bool) :
    (startRun l d v).dispSignBy = d := rfl
@[simp] theorem startRun_verbose (l : List Byte) (d : DispSignBy) (v : Bool) :
    (startRun l d v).verbose = v := rfl
@[simp] theorem startRun_off (l : List Byte) (d : DispSignBy) (v : Bool) : (startRun l d v).off = 0 := rfl
@[simp] theorem startRun_halt (l : List Byte) (d : DispSignBy) (v : Bool) : (startRun l d v).halt = none := rfl
@[simp] theorem startRun_out (l : List Byte) (d : DispSignBy) (v : Bool) : (startRun l d v).out = [] := rfl

/-! ## placeAtFetch (log 21) -/

@[simp] theorem placeAtFetch_buf (b : List Byte) (s : State) :
    (placeAtFetch b s).buf = writeBytes s.buf s.pos b := rfl
@[simp] theorem placeAtFetch_N (b : List Byte) (s : State) :
    (placeAtFetch b s).N = max s.N (s.pos + b.length) := rfl
@[simp] theorem placeAtFetch_dispSignBy (b : List Byte) (s : State) :
    (placeAtFetch b s).dispSignBy = s.dispSignBy := rfl
@[simp] theorem placeAtFetch_verbose (b : List Byte) (s : State) :
    (placeAtFetch b s).verbose = s.verbose := rfl
@[simp] theorem placeAtFetch_off (b : List Byte) (s : State) : (placeAtFetch b s).off = s.off := rfl
@[simp] theorem placeAtFetch_halt (b : List Byte) (s : State) : (placeAtFetch b s).halt = none := rfl
@[simp] theorem placeAtFetch_out (b : List Byte) (s : State) : (placeAtFetch b s).out = s.out := rfl

/-! ## Derived values -/

@[simp] theorem accept_pos (I : Record) (s : State) : (accept I s).pos = s.pos + I.len := by
  simp only [State.pos, accept_off]; omega

@[simp] theorem takeError_pos (e : DecodeError) (s : State) : (takeError e s).pos = s.pos := rfl

end Sys2Proof.Machine
end

