-- ==== Sys2Proof/Laws/Memory.lean ====
section
/-! SUPPORT. The laws of the buffer: read after write, the canonical form, and the reads of a run. -/

namespace Sys2Proof.Machine

@[simp] theorem readByte_nil (a : Nat) : readByte [] a = none := rfl

@[simp] theorem readByte_cons (k : Nat) (b : Byte) (m : Memory) (a : Nat) :
    readByte ((k, b) :: m) a = if k = a then some b else readByte m a := rfl

/-! ## Writing -/

theorem readByte_writeByte (m : Memory) (a : Nat) (v : Byte) (a' : Nat) :
    readByte (writeByte m a v) a' = if a = a' then some v else readByte m a' := by
  induction m with
  | nil => simp [writeByte]
  | cons c m ih =>
    obtain ⟨k, b⟩ := c
    simp only [writeByte]
    by_cases h1 : a < k
    · rw [if_pos h1, readByte_cons]
    · rw [if_neg h1]
      by_cases h2 : a = k
      · subst h2
        rw [if_pos rfl, readByte_cons, readByte_cons]
        split_ifs <;> rfl
      · rw [if_neg h2, readByte_cons, readByte_cons, ih]
        by_cases hk : k = a'
        · rw [if_pos hk, if_pos hk, if_neg fun h => h2 (h.trans hk.symm)]
        · rw [if_neg hk, if_neg hk]

theorem readByte_writeByte_same (m : Memory) (a : Nat) (v : Byte) : readByte (writeByte m a v) a = some v := by
  simp [readByte_writeByte]

theorem readByte_writeByte_other (m : Memory) (v : Byte) {a a' : Nat} (h : a ≠ a') :
    readByte (writeByte m a v) a' = readByte m a' := by
  simp [readByte_writeByte, h]

/-- Every position of the written memory is the written one or an old one. -/
theorem mem_writeByte {m : Memory} {a : Nat} {v : Byte} {c : Host.Cell} (h : c ∈ writeByte m a v) :
    c = (a, v) ∨ c ∈ m := by
  induction m with
  | nil => simpa [writeByte] using h
  | cons d m ih =>
    obtain ⟨k, b⟩ := d
    simp only [writeByte] at h
    split_ifs at h <;> simp only [List.mem_cons] at h ⊢ <;> tauto

/-- A write keeps the canonical form. -/
theorem writeByte_keeps_wf {m : Memory} (a : Nat) (v : Byte) (h : Memory.wf m) : Memory.wf (writeByte m a v) := by
  refine ⟨?_, fun c _ => by simp [unlisted]⟩
  replace h := h.1
  induction m with
  | nil => simp [writeByte]
  | cons d m ih =>
    obtain ⟨k, b⟩ := d
    have hm := List.pairwise_cons.1 h
    simp only [writeByte]
    split_ifs with h1 h2
    · refine List.pairwise_cons.2 ⟨fun c hc => ?_, h⟩
      rcases List.mem_cons.1 hc with rfl | hc
      · exact h1
      · exact lt_trans h1 (hm.1 c hc)
    · exact List.pairwise_cons.2 ⟨fun c hc => h2 ▸ hm.1 c hc, hm.2⟩
    · refine List.pairwise_cons.2 ⟨fun c hc => ?_, ih hm.2⟩
      rcases mem_writeByte hc with rfl | hc
      · exact lt_of_le_of_ne (not_lt.1 h1) (Ne.symm h2)
      · exact hm.1 c hc

theorem writeBytes_keeps_wf {m : Memory} (a : Nat) (vs : List Byte) (h : Memory.wf m) :
    Memory.wf (writeBytes m a vs) := by
  induction vs generalizing m a with
  | nil => exact h
  | cons v vs ih => exact ih (a + 1) (writeByte_keeps_wf a v h)

/-- Bytes written at consecutive positions read back; every other position is unchanged. -/
theorem readByte_writeBytes (m : Memory) (a : Nat) (vs : List Byte) (a' : Nat) :
    readByte (writeBytes m a vs) a' =
      if a ≤ a' ∧ a' < a + vs.length then vs[a' - a]? else readByte m a' := by
  induction vs generalizing m a with
  | nil =>
    rw [writeBytes, if_neg (by simp)]
  | cons v vs ih =>
    rw [writeBytes, ih, readByte_writeByte, List.length_cons]
    rcases Nat.lt_trichotomy a a' with h | rfl | h
    · have hk : a' - a = (a' - (a + 1)) + 1 := by omega
      by_cases h' : a' < a + 1 + vs.length
      · rw [if_pos ⟨h, h'⟩, if_pos ⟨h.le, by omega⟩, hk, List.getElem?_cons_succ]
      · rw [if_neg (by omega), if_neg (by omega), if_neg (by omega)]
    · rw [if_neg (by omega), if_pos rfl, if_pos ⟨le_refl a, by omega⟩, Nat.sub_self, List.getElem?_cons_zero]
    · rw [if_neg (by omega), if_neg (by omega), if_neg (by omega)]

/-! ## A buffer laid out from its bytes -/

theorem readByte_cellsFrom (p : Nat) (l : List Byte) (a : Nat) :
    readByte (cellsFrom p l) a = if p ≤ a then l[a - p]? else none := by
  induction l generalizing p with
  | nil => simp [cellsFrom]
  | cons v l ih =>
    rw [cellsFrom, readByte_cons, ih]
    rcases Nat.lt_trichotomy p a with h | rfl | h
    · have h' : a - p = (a - (p + 1)) + 1 := by omega
      rw [if_neg (by omega), if_pos (by omega), if_pos (by omega), h']
      simp
    · simp
    · rw [if_neg (by omega), if_neg (by omega), if_neg (by omega)]

theorem mem_cellsFrom {p : Nat} {l : List Byte} {c : Host.Cell} (h : c ∈ cellsFrom p l) : p ≤ c.1 := by
  induction l generalizing p with
  | nil => simp [cellsFrom] at h
  | cons v l ih =>
    rcases List.mem_cons.1 h with rfl | h
    · exact le_refl p
    · exact le_trans (Nat.le_succ p) (ih h)

theorem cellsFrom_wf (p : Nat) (l : List Byte) : Memory.wf (cellsFrom p l) := by
  refine ⟨?_, fun c _ => by simp [unlisted]⟩
  induction l generalizing p with
  | nil => simp [cellsFrom]
  | cons v l ih => exact List.pairwise_cons.2 ⟨fun c hc => mem_cellsFrom hc, ih (p + 1)⟩

/-- The buffer of reset is canonical. -/
theorem reset_buf_wf : Memory.wf State.reset.buf := by simp [State.reset, Memory.wf]

/-! ## Reading the buffer of a run -/

/-- A fetched byte is a byte of the buffer below N. -/
theorem fetchByte_eq_ok {s : State} {a : Nat} {v : Byte} (h : fetchByte s a = .ok v) :
    a < s.N ∧ readByte s.buf a = some v := by
  unfold fetchByte at h
  split at h
  · refine ⟨‹_›, ?_⟩
    split at h <;> simp_all
  · simp at h

/-- A read at or above N is refused (R46). -/
theorem fetchByte_out_of_range {s : State} {a : Nat} (h : s.N ≤ a) : fetchByte s a = .error .outOfRangeRead := by
  simp [fetchByte, Nat.not_lt.2 h]

/-- What `memRead` reads: as many bytes as asked for, each the buffer's byte at its position. -/
theorem memRead_eq_ok {s : State} {a k : Nat} {b : List Byte} (h : memRead s a k = .ok b) :
    b.length = k ∧ ∀ j, j < k → a + j < s.N ∧ b[j]? = readByte s.buf (a + j) := by
  induction k generalizing a b with
  | zero => simp_all [memRead]
  | succ k ih =>
    rw [memRead] at h
    split at h <;> try contradiction
    next v bs hv hbs =>
    obtain ⟨hl, hj⟩ := ih hbs
    obtain ⟨ha, hr⟩ := fetchByte_eq_ok hv
    cases h
    refine ⟨by simp [hl], fun j hjk => ?_⟩
    cases j with
    | zero => exact ⟨ha, by simp [hr]⟩
    | succ j =>
      have := hj j (by omega)
      rw [show a + 1 + j = a + (j + 1) by omega] at this
      simpa using this

/-- In a range where every byte is there, `memRead` succeeds. -/
theorem memRead_total {s : State} {a k : Nat}
    (h : ∀ j, j < k → a + j < s.N ∧ (readByte s.buf (a + j)).isSome) : ∃ b, memRead s a k = .ok b := by
  induction k generalizing a with
  | zero => exact ⟨[], rfl⟩
  | succ k ih =>
    obtain ⟨h0, h1⟩ := h 0 (by omega)
    obtain ⟨v, hv⟩ := Option.isSome_iff_exists.1 h1
    obtain ⟨bs, hbs⟩ := ih (a := a + 1) fun j hj => by
      have := h (j + 1) (by omega)
      rwa [show a + (j + 1) = a + 1 + j by omega] at this
    refine ⟨v :: bs, ?_⟩
    have : fetchByte s a = .ok v := by
      simp only [Nat.add_zero] at h0 hv
      simp [fetchByte, h0, hv]
    rw [memRead, this, hbs]

/-- `memRead` depends on the buffer and its length alone. -/
theorem memRead_congr {s t : State} (hb : t.buf = s.buf) (hN : t.N = s.N) (a k : Nat) :
    memRead t a k = memRead s a k := by
  induction k generalizing a with
  | zero => rfl
  | succ k ih => simp only [memRead, ih, fetchByte, hb, hN]

/-- The window depends on the buffer and its length alone. -/
theorem windowAt_congr {s t : State} (hb : t.buf = s.buf) (hN : t.N = s.N) (p : Nat) :
    windowAt t p = windowAt s p := by
  simp only [windowAt, windowLength, hN]
  exact memRead_congr hb hN p _

@[simp] theorem windowAt_accept (I : Record) (s : State) (p : Nat) :
    windowAt (accept I s) p = windowAt s p := windowAt_congr (s := s) (t := accept I s) rfl rfl p

@[simp] theorem windowAt_takeError (e : DecodeError) (s : State) (p : Nat) :
    windowAt (takeError e s) p = windowAt s p := windowAt_congr (s := s) (t := takeError e s) rfl rfl p

/-- A window that is read has the length `min(6, N - p)` (R43). -/
theorem windowAt_length {s : State} {p : Nat} {b : List Byte} (h : windowAt s p = .ok b) :
    b.length = windowLength s p := (memRead_eq_ok h).1

end Sys2Proof.Machine
end

