-- ==== Sys2Proof/Laws/Operands.lean ====
section
/-! SUPPORT. The operand resolver on what the decoder reads. -/

namespace Sys2Proof

/-- A displacement the decoder reads fits its mod and rm: the rm operand exists. -/
theorem rmOperand_total {b : List Byte} {mod : BitVec 2} {rm : BitVec 3} {disp : Option Disp} (w : Bool)
    (h : dispVal b (dlen mod rm) = some disp) : ∃ o, rmOperand mod rm w disp = some o := by
  have one {f} (h : sizedAt b 2 1 = some f) : ∃ v, f = Sized.byte v := by
    simp only [sizedAt, Option.map_eq_some_iff] at h
    obtain ⟨v, _, rfl⟩ := h; exact ⟨v, rfl⟩
  have two {f} (h : sizedAt b 2 2 = some f) : ∃ v, f = Sized.half v := by
    simp only [sizedAt] at h
    split at h <;> cases h
    exact ⟨_, rfl⟩
  unfold dlen at h
  unfold rmOperand
  cases hm : modeOf mod <;> simp only [hm] at h ⊢
  · split at h
    · next hr =>
      obtain ⟨f, hf, rfl⟩ := Option.map_eq_some_iff.1 h
      obtain ⟨v, rfl⟩ := two hf
      simp [hr]
    · next hr => cases h; simp [hr]
  · obtain ⟨f, hf, rfl⟩ := Option.map_eq_some_iff.1 h
    obtain ⟨v, rfl⟩ := one hf
    exact ⟨_, rfl⟩
  · obtain ⟨f, hf, rfl⟩ := Option.map_eq_some_iff.1 h
    obtain ⟨v, rfl⟩ := two hf
    exact ⟨_, rfl⟩
  · cases h; exact ⟨_, rfl⟩

end Sys2Proof
end

