-- ==== Sys2Proof/Laws/PerInstr.lean ====
section
/-! SUPPORT. Statements about every instruction as syntax, one lemma per constructor. -/

namespace Sys2Proof.Laws.Length

/-- The length function is the number of bytes the encoding has, and lies between 2 and 6 (R60, R76). -/
def Statement (i : Instr) : Prop :=
  i.wellFormed = true → (encode i).length = i.len ∧ 2 ≤ i.len ∧ i.len ≤ Config.winMax

theorem movRmReg (w : Bool) (mod : BitVec 2) (reg rm : BitVec 3) (disp : Option Disp) :
    Statement (.movRmReg w mod reg rm disp) := fun h => by
  have h := dispFits_iff.1 h
  have := dlen_le_two mod rm
  simp [encode, Instr.len, lenRmReg, Config.winMax, h]; omega

theorem movRegRm (w : Bool) (mod : BitVec 2) (reg rm : BitVec 3) (disp : Option Disp) :
    Statement (.movRegRm w mod reg rm disp) := fun h => by
  have h := dispFits_iff.1 h
  have := dlen_le_two mod rm
  simp [encode, Instr.len, lenRmReg, Config.winMax, h]; omega

theorem movRegImm (w : Bool) (reg : BitVec 3) (imm : Imm) : Statement (.movRegImm w reg imm) := fun h => by
  have h := widthFits_iff.1 h
  have := w.toNat_le
  simp [encode, Instr.len, lenImmReg, Config.winMax, h]; omega

theorem movRmImm (w : Bool) (mod : BitVec 2) (rm : BitVec 3) (disp : Option Disp) (imm : Imm) :
    Statement (.movRmImm w mod rm disp imm) := fun h => by
  simp only [Instr.wellFormed, Bool.and_eq_true] at h
  have h1 := dispFits_iff.1 h.1
  have h2 := widthFits_iff.1 h.2
  have := dlen_le_two mod rm
  have := w.toNat_le
  simp [encode, Instr.len, lenImmRm, Config.winMax, h1, h2]; omega

theorem movAxMem (w : Bool) (addr : Addr) : Statement (.movAxMem w addr) := fun h => by
  have h := widthFits_iff.1 h
  have := w.toNat_le
  simp [encode, Instr.len, lenAccMem, Config.winMax, h]; omega

theorem movMemAx (w : Bool) (addr : Addr) : Statement (.movMemAx w addr) := fun h => by
  have h := widthFits_iff.1 h
  have := w.toNat_le
  simp [encode, Instr.len, lenAccMem, Config.winMax, h]; omega

end Sys2Proof.Laws.Length
end

