-- ==== Sys2Proof/Laws/Render.lean ====
section
/-! SUPPORT. How the text grows: a list of lines and its characters under an appended record. -/

namespace Sys2Proof.Machine

@[simp] theorem terminateLines_nil : terminateLines [] = "" := rfl

@[simp] theorem terminateLines_cons (l : String) (ls : List String) :
    terminateLines (l :: ls) = l ++ lineTerminator ++ terminateLines ls := rfl

/-- The characters of two lists of lines follow each other. -/
theorem terminateLines_append (ls ms : List String) :
    terminateLines (ls ++ ms) = terminateLines ls ++ terminateLines ms := by
  induction ls with
  | nil => simp
  | cons l ls ih => simp [ih, String.append_assoc]

/-- The characters of lines are each line's characters and a newline. -/
theorem terminateLines_toList (ls : List String) :
    (terminateLines ls).toList = ls.flatMap fun l => l.toList ++ ['\n'] := by
  induction ls with
  | nil => rfl
  | cons l ls ih => simp [ih, lineTerminator]

/-- A list of records whose records all have a line has as many lines. -/
theorem linesText_total {signBy : DispSignBy} {out : List (Nat × Record)}
    (h : ∀ e ∈ out, (recordText signBy e.2).isSome) :
    ∃ ls, linesText signBy out = some ls ∧ ls.length = out.length := by
  induction out with
  | nil => exact ⟨[], rfl, rfl⟩
  | cons e out ih =>
    obtain ⟨l, hl⟩ := Option.isSome_iff_exists.1 (h e (by simp))
    obtain ⟨ls, hls, hlen⟩ := ih fun e he => h e (by simp [he])
    exact ⟨l :: ls, by simp [linesText, hl, hls], by simp [hlen]⟩

/-- An appended record appends its line. -/
theorem linesText_append {signBy : DispSignBy} {out : List (Nat × Record)} {ls : List String} (a : Nat)
    {I : Record} {l : String} (h : linesText signBy out = some ls) (hl : recordText signBy I = some l) :
    linesText signBy (out ++ [(a, I)]) = some (ls ++ [l]) := by
  induction out generalizing ls with
  | nil => cases h; simp [linesText, hl]
  | cons e out ih =>
    simp only [linesText] at h
    split at h
    · next hm hms => cases h; simp [linesText, hm, ih hms]
    · cases h

end Sys2Proof.Machine
end

