-- ==== Sys2Proof/Laws/Step.lean ====
section
/-! SUPPORT. What the shared operations and the step can do, said once. -/

namespace Sys2Proof.Machine

/-! ## Run status -/

theorem status_running {s : State} : s.status = .running ↔ s.Running := by
  unfold State.status State.Running
  cases s.halt <;> simp

theorem status_failed {s : State} : s.status = .failed ↔ s.Failed := by
  unfold State.status State.Failed
  cases s.halt <;> simp
  split <;> simp

theorem status_finished {s : State} : s.status = .finished ↔ s.halt = none ∧ 8 * s.N ≤ s.off := by
  unfold State.status
  cases s.halt <;> simp

theorem whileRunning_of_running {s : State} (h : s.Running) (go : Host.Outcome State Fault Refusal) :
    whileRunning s go = go := by
  simp [whileRunning, status_running.2 h]

theorem whileRunning_of_failed {s : State} (h : s.Failed) (go : Host.Outcome State Fault Refusal) :
    whileRunning s go = .fault .runFailed := by
  simp [whileRunning, status_failed.2 h]

theorem whileRunning_of_finished {s : State} (h : s.halt = none ∧ 8 * s.N ≤ s.off)
    (go : Host.Outcome State Fault Refusal) : whileRunning s go = .fault .runFinished := by
  simp [whileRunning, status_finished.2 h]

/-- Whatever goes on to a next state goes on from a running state. -/
theorem whileRunning_eq_next {s t : State} {go : Host.Outcome State Fault Refusal}
    (h : whileRunning s go = .next t) : s.Running ∧ go = .next t := by
  unfold whileRunning at h
  split at h
  · exact ⟨status_running.1 ‹_›, h⟩
  · cases h
  · cases h

/-! ## retire, the shared effect of every instruction -/

/-- All that `retire` can go on to: the record is accepted, or TruncatedInput is latched. -/
theorem retire_cases {I : Record} {s t : State} (h : retire I s = .next t) :
    s.Running ∧ ((I.len ≤ windowLength s s.pos ∧ t = accept I s) ∨
      (windowLength s s.pos < I.len ∧ t = takeError (.truncatedInput I.len (windowLength s s.pos)) s)) := by
  obtain ⟨hr, h⟩ := whileRunning_eq_next h
  refine ⟨hr, ?_⟩
  split at h <;> cases h
  · exact .inl ⟨‹_›, rfl⟩
  · exact .inr ⟨not_le.1 ‹_›, rfl⟩

theorem retire_accepts {I : Record} {s : State} (hr : s.Running) (hl : I.len ≤ windowLength s s.pos) :
    retire I s = .next (accept I s) := by
  rw [retire, whileRunning_of_running hr, if_pos hl]

theorem retire_truncates {I : Record} {s : State} (hr : s.Running) (hl : windowLength s s.pos < I.len) :
    retire I s = .next (takeError (.truncatedInput I.len (windowLength s s.pos)) s) := by
  rw [retire, whileRunning_of_running hr, if_neg (not_le.2 hl)]

/-- Every instruction retires its record. -/
theorem exec_eq_retire (i : Instr) (s : State) : exec i s = retire i.record s := by
  cases i <;> rfl

@[simp] theorem record_len (i : Instr) : i.record.len = i.len := by
  cases i <;> rfl

/-! ## The step -/

/-- All that a step can go on to: it runs the decoded instruction, or latches the decode's error. -/
theorem step_cases {s t : State} (h : step s = .next t) :
    s.Running ∧ ∃ b, windowAt s s.pos = .ok b ∧
      ((∃ i, decode b = .ok i ∧ exec i s = .next t) ∨ (∃ e, decode b = .err e ∧ t = takeError e s)) := by
  obtain ⟨hr, h⟩ := whileRunning_eq_next h
  refine ⟨hr, ?_⟩
  unfold fetchDecodeAct at h
  split at h
  · next b hb =>
    refine ⟨b, hb, ?_⟩
    unfold act at h
    split at h
    · next i hi => exact .inl ⟨i, hi, h⟩
    · next e he => cases h; exact .inr ⟨e, he, rfl⟩
    · cases h
  · cases h

theorem step_of_window {s : State} {b : List Byte} (hr : s.Running) (hw : windowAt s s.pos = .ok b) :
    step s = act (decode b) s := by
  rw [step, sequencerStep, whileRunning_of_running hr, fetchDecodeAct, hw]

/-- A decoded instruction is accepted: the decode has checked its length (R76, R201). -/
theorem exec_of_decoded {s : State} {b : List Byte} {i : Instr} (hr : s.Running)
    (hw : windowAt s s.pos = .ok b) (hd : decode b = .ok i) : exec i s = .next (accept i.record s) := by
  rw [exec_eq_retire]
  exact retire_accepts hr (by rw [record_len, ← windowAt_length hw]; exact decode_len hd)

/-! ## Runs of steps -/

@[simp] theorem run_zero (s : State) : Host.Core.run Sys2Proof.core 0 s = .next s := rfl

/-- A run of `k + 1` steps is a step and a run of `k` steps. -/
theorem run_succ (s : State) (k : Nat) :
    (Host.Core.run Sys2Proof.core (k + 1) s : Host.Outcome State Fault Refusal) =
      match step s with
      | .next s' => Host.Core.run Sys2Proof.core k s'
      | .fault r => .fault r
      | .refused r => .refused r := by
  cases h : step s <;>
  · have h : Sys2Proof.core.step s = _ := h
    simp only [Host.Core.run, h]

/-- Where a run of `k + 1` steps goes on, its first step goes on and the rest runs from there. -/
theorem run_succ_eq_next {s t : State} {k : Nat} (h : Host.Core.run Sys2Proof.core (k + 1) s = .next t) :
    ∃ s', step s = .next s' ∧ Host.Core.run Sys2Proof.core k s' = .next t := by
  have h := (run_succ s k).symm.trans h
  cases hs : step s with
  | next s' => rw [hs] at h; exact ⟨s', rfl, h⟩
  | fault r => rw [hs] at h; cases h
  | refused r => rw [hs] at h; cases h

end Sys2Proof.Machine
end

