-- ==== Sys2Proof/Tests/Slice0.lean ====
section
/-! SUPPORT. The model's own tests. Expected results come from 95_test_vectors.md (V and W rows, P7) or from the
rule each comment names; the witnesses at the end meet the hypotheses of the statements. -/

namespace Sys2Proof.Tests

open Sys2Proof Sys2Proof.Machine

/-! ## Ill-formed terms are refused -/

/-- R72: mod 00 with rm 110 carries a 16-bit address. -/
theorem test_wf_missing_address : (Instr.movRmReg true 0b00#2 0b000#3 0b110#3 none).wellFormed = false := by decide
/-- R72: mod 11 carries no displacement. -/
theorem test_wf_extra_displacement :
    (Instr.movRegRm true 0b11#2 0b000#3 0b000#3 (some (.byte 0#8))).wellFormed = false := by decide
/-- R72: mod 01 carries an 8-bit displacement. -/
theorem test_wf_wide_displacement :
    (Instr.movRmImm false 0b01#2 0b000#3 (some (.half 0#16)) (.byte 0#8)).wellFormed = false := by decide
/-- R75: a narrow form 3 carries an 8-bit immediate. -/
theorem test_wf_wide_immediate :
    (Instr.movRmImm false 0b11#2 0b000#3 none (.half 0#16)).wellFormed = false := by decide
/-- R75: a wide form 2 carries a 16-bit immediate. -/
theorem test_wf_narrow_immediate : (Instr.movRegImm true 0b000#3 (.byte 0#8)).wellFormed = false := by decide
/-- R160: a narrow form 4 carries an 8-bit address. -/
theorem test_wf_wide_address : (Instr.movAxMem false (.half 0#16)).wellFormed = false := by decide
/-- R160: a wide form 4 carries a 16-bit address. -/
theorem test_wf_narrow_address : (Instr.movMemAx true (.byte 0#8)).wellFormed = false := by decide

/-! ## Decoding of words written out from the encodings (R61 to R64) -/

/-- W1, V1: `10001001 11 011 000`. -/
theorem test_decode_mov_rm_reg :
    decode [0b10001001#8, 0b11011000#8] = .ok (.movRmReg true 0b11#2 0b011#3 0b000#3 none) := by decide
/-- V15: `10001001 10 000 111`, displacement 1000H low byte first. -/
theorem test_decode_mov_rm_reg_disp16 :
    decode [0b10001001#8, 0b10000111#8, 0x00#8, 0x10#8] =
      .ok (.movRmReg true 0b10#2 0b000#3 0b111#3 (some (.half 0x1000#16))) := by decide
/-- W3, V6: `10001010 00 000 000`. -/
theorem test_decode_mov_reg_rm :
    decode [0b10001010#8, 0b00000000#8] = .ok (.movRegRm false 0b00#2 0b000#3 0b000#3 none) := by decide
/-- V18: `10001011 00 011 110`, direct address 1234H. -/
theorem test_decode_mov_reg_direct :
    decode [0b10001011#8, 0b00011110#8, 0x34#8, 0x12#8] =
      .ok (.movRegRm true 0b00#2 0b011#3 0b110#3 (some (.half 0x1234#16))) := by decide
/-- W2, V21: `1011 1 000`, immediate 0001H. -/
theorem test_decode_mov_reg_imm :
    decode [0b10111000#8, 0x01#8, 0x00#8] = .ok (.movRegImm true 0b000#3 (.half 0x0001#16)) := by decide
/-- V25: `1011 0 101`, immediate F4H. -/
theorem test_decode_mov_reg_imm_narrow :
    decode [0b10110101#8, 0xF4#8] = .ok (.movRegImm false 0b101#3 (.byte 0xF4#8)) := by decide
/-- V36: `11000111 10 000 101`, displacement 0385H, immediate 015BH. -/
theorem test_decode_mov_rm_imm :
    decode [0b11000111#8, 0b10000101#8, 0x85#8, 0x03#8, 0x5B#8, 0x01#8] =
      .ok (.movRmImm true 0b10#2 0b101#3 (some (.half 0x0385#16)) (.half 0x015B#16)) := by decide
/-- V37: `11000110 00 111 000`, the middle bits ignored. -/
theorem test_decode_mov_rm_imm_middle_bits :
    decode [0b11000110#8, 0b00111000#8, 0x01#8] = .ok (.movRmImm false 0b00#2 0b000#3 none (.byte 0x01#8)) := by decide
/-- V38: `10100001`, address 09FBH. -/
theorem test_decode_mov_ax_mem :
    decode [0b10100001#8, 0xFB#8, 0x09#8] = .ok (.movAxMem true (.half 0x09FB#16)) := by decide
/-- V40: `10100000`, an 8-bit address. -/
theorem test_decode_mov_ax_mem_narrow :
    decode [0b10100000#8, 0x10#8] = .ok (.movAxMem false (.byte 0x10#8)) := by decide
/-- V39: `10100011`, address 000FH. -/
theorem test_decode_mov_mem_ax :
    decode [0b10100011#8, 0x0F#8, 0x00#8] = .ok (.movMemAx true (.half 0x000F#16)) := by decide
/-- V41: `10100010`, an 8-bit address. -/
theorem test_decode_mov_mem_ax_narrow :
    decode [0b10100010#8, 0xFF#8] = .ok (.movMemAx false (.byte 0xFF#8)) := by decide
/-- V47: an unmatched first byte wins over the short window. -/
theorem test_decode_unsupported : decode [0xA4#8] = .err (.unsupportedOpcode 0xA4#8) := by decide
/-- V48. -/
theorem test_decode_second_byte_missing : decode [0x89#8] = .err (.truncatedInput 2 1) := by decide
/-- V55. -/
theorem test_decode_truncated :
    decode [0xC7#8, 0x06#8, 0x10#8, 0x00#8, 0x05#8] = .err (.truncatedInput 6 5) := by decide
/-- R66: of each quarter of the first bytes 0, 0, 24 and 2 match, 26 in all. -/
theorem test_matcher_census :
    [0, 1, 2, 3].map (fun h => ((List.range 64).filter fun n =>
      (matchForm (BitVec.ofNat 8 (64 * h + n))).isSome).length) = [0, 0, 24, 2] := by decide
/-- The encoder writes V32's bytes. -/
theorem test_encode_mov_rm_imm :
    encode (.movRmImm false 0b01#2 0b110#3 (some (.byte 0xFF#8)) (.byte 0x80#8)) = [0xC6#8, 0x46#8, 0xFF#8, 0x80#8] := by
  decide
/-- The opcode table's row 8AH with operand bytes of zeros. -/
theorem test_table_word : decodeTableWord 8 0x8A = some (.movRegRm false 0b00#2 0b000#3 0b000#3 none) := by decide

/-! ## Derived outputs and text -/

/-- V10: disp8 FEH, narrow. -/
theorem test_text_negative_disp8 :
    recordText .field (recordMovRegRm false 0b01#2 0b000#3 0b000#3 (some (.byte 0xFE#8))) =
      some "mov al, [bx + si - 2]" := by decide
/-- V56, under FIELD and under W. -/
theorem test_text_sign_by :
    [DispSignBy.field, .w].map (fun d => recordText d (recordMovRegRm true 0b01#2 0b010#3 0b110#3 (some (.byte 0xFC#8)))) =
      [some "mov dx, [bp - 4]", some "mov dx, [bp + 252]"] := by decide
/-- V58, under FIELD and under W. -/
theorem test_text_sign_by_narrow :
    [DispSignBy.field, .w].map (fun d => recordText d (recordMovRegRm false 0b10#2 0b000#3 0b000#3 (some (.half 0x0100#16)))) =
      [some "mov al, [bx + si + 256]", some "mov al, [bx + si]"] := by decide
/-- V8. -/
theorem test_text_mov_rm_reg :
    recordText .field (recordMovRmReg false 0b01#2 0b101#3 0b110#3 (some (.byte 0x00#8))) = some "mov [bp], ch" := by decide
/-- V26. -/
theorem test_text_mov_reg_imm :
    recordText .field (recordMovRegImm true 0b011#3 (.half 0x8000#16)) = some "mov bx, -32768" := by decide
/-- V31. -/
theorem test_text_keyword_register :
    recordText .field (recordMovRmImm true 0b11#2 0b000#3 none (.half 0x0001#16)) = some "mov ax, word 1" := by decide

/-! ## One step, from the start of P7 (`89 D8 90`) -/

/-- P7 at its start. -/
def p7Start : State := startRun [0x89#8, 0xD8#8, 0x90#8] .field false
/-- P7 after its first step: `mov ax, bx` at position 0. -/
def p7Middle : State := { p7Start with out := [(0, .rmReg false true 0b11#2 0b011#3 0b000#3 none 2)], off := 16 }
/-- P7 at its end: failed at position 2. -/
def p7End : State := { p7Middle with halt := some ⟨.unsupportedOpcode, 2, some 0x90#8⟩ }
/-- P6's window (`B0` alone): truncated. -/
def p6Window : State := startRun [0xB0#8] .field false

theorem test_step_success : step p7Start = .next p7Middle := rfl
theorem test_step_unsupported : step p7Middle = .next p7End := rfl
theorem test_step_failed_has_none : step p7End = .fault .runFailed := rfl
theorem test_step_truncated :
    step p6Window = .next { p6Window with halt := some ⟨.truncatedInput, 0, none⟩ } := rfl
/-- P8: the empty input is finished. -/
theorem test_step_empty : step (startRun [] .w true) = .fault .runFinished := rfl
/-- Sections 4 and 5: the text of the failed run. -/
theorem test_text_failed_run : p7End.text = some ["bits 16", "mov ax, bx"] := by decide
/-- The same text as characters, each line ended by a newline (D16). -/
theorem test_text_stream_failed_run : p7End.textStream = some "bits 16\nmov ax, bx\n" := by decide
/-- The table's row A2H is the first instruction after reset. -/
theorem test_fetch_word :
    step (State.reset.withFetchWord 8 0xA2) =
      .next (accept (.accMem true false (.byte 0#8) 2) (State.reset.withFetchWord 8 0xA2)) := rfl

/-! ## Witnesses: concrete states and operands that meet the hypotheses of the statements -/

theorem startRun_supplied (bytes : List Byte) (signBy : DispSignBy) (verbose : Bool) :
    Supplied (startRun bytes signBy verbose) := fun a => by
  rw [startRun_buf, readByte_cellsFrom, startRun_N, if_pos (Nat.zero_le a), Nat.sub_zero]
  by_cases h : a < bytes.length <;> simp [h]

theorem p7_supplied : Supplied p7Start := startRun_supplied _ _ _

/-- A buffer longer than a window. -/
def sevenBytes : State := startRun [0xB0#8, 0x01#8, 0xB0#8, 0x01#8, 0xB0#8, 0x01#8, 0x90#8] .field false

theorem sevenBytes_supplied : Supplied sevenBytes := startRun_supplied _ _ _

theorem p7Start_inv : Inv p7Start where
  canonical := cellsFrom_wf 0 _
  supplied := p7_supplied
  aligned := rfl
  bounded := by decide
  chained := rfl
  faithful := fun e he => by simp [p7Start] at he
  latched := fun E hE => by simp [p7Start] at hE

theorem p7End_inv : Inv p7End where
  canonical := cellsFrom_wf 0 _
  supplied := p7_supplied
  aligned := rfl
  bounded := by decide
  chained := ⟨rfl, rfl⟩
  faithful := fun e he => by
    obtain rfl := List.mem_singleton.1 he
    exact ⟨[0x89#8, 0xD8#8, 0x90#8], .movRmReg true 0b11#2 0b011#3 0b000#3 none, rfl, by decide, rfl⟩
  latched := fun E hE => by
    cases hE
    exact ⟨by decide, rfl, [0x90#8], .unsupportedOpcode 0x90#8, rfl, by decide, rfl, rfl⟩

theorem p7Middle_inv : Inv p7Middle where
  canonical := cellsFrom_wf 0 _
  supplied := p7_supplied
  aligned := rfl
  bounded := by decide
  chained := ⟨rfl, rfl⟩
  faithful := fun e he => by
    obtain rfl := List.mem_singleton.1 he
    exact ⟨[0x89#8, 0xD8#8, 0x90#8], .movRmReg true 0b11#2 0b011#3 0b000#3 none, rfl, by decide, rfl⟩
  latched := fun E hE => by cases hE

theorem witness_StepKeepsInvariant : Inv p7Start ∧ step p7Start = .next p7Middle := ⟨p7Start_inv, rfl⟩

theorem witness_StepRunsDecodedInstruction :
    p7Start.Running ∧ memRead p7Start (p7Start.off / 8) (min 6 (p7Start.N - p7Start.off / 8)) = .ok [0x89#8, 0xD8#8, 0x90#8] ∧
      decode [0x89#8, 0xD8#8, 0x90#8] = .ok (.movRmReg true 0b11#2 0b011#3 0b000#3 none) := ⟨by decide, rfl, by decide⟩

/-- Both clauses: an unmatched byte, and a matched byte alone. -/
theorem witness_StepLatchesDecodeError :
    (p7Middle.Running ∧ memRead p7Middle (p7Middle.off / 8) (min 6 (p7Middle.N - p7Middle.off / 8)) = .ok [0x90#8] ∧
      decode [0x90#8] = .err (.unsupportedOpcode 0x90#8)) ∧
    (p6Window.Running ∧ memRead p6Window (p6Window.off / 8) (min 6 (p6Window.N - p6Window.off / 8)) = .ok [0xB0#8] ∧
      decode [0xB0#8] = .err (.truncatedInput 2 1)) := ⟨⟨by decide, rfl, by decide⟩, ⟨by decide, rfl, by decide⟩⟩

/-- One state for each clause: failed, finished, running at the last byte. -/
theorem witness_StepExistsOnlyWhileRunning :
    p7End.halt ≠ none ∧ (State.reset.halt = none ∧ State.reset.off = 8 * State.reset.N) ∧
      step p7Middle = .next p7End ∧ (Inv p7Middle ∧ p7Middle.halt = none ∧ p7Middle.off < 8 * p7Middle.N) :=
  ⟨by decide, by decide, rfl, p7Middle_inv, by decide, by decide⟩

/-- An end state at the bound, and a failed one below it. -/
theorem witness_RunStatusIsDerived :
    State.reset.off ≤ 8 * State.reset.N ∧ State.reset.status ≠ .running ∧ p7End.off ≤ 8 * p7End.N ∧
      p7End.status ≠ .running := by decide

theorem witness_FailedRunNeverResumes : p7End.Failed ∧ step p7Middle = .next p7End := ⟨by decide, rfl⟩

/-- Clause 1 with three bytes left, with one byte left, and with more bytes left than a window holds; clause 2
with two bytes left. -/
theorem witness_StepDecodesWindowOfBuffer :
    (Supplied p7Start ∧ p7Start.Running) ∧ (Supplied p7Middle ∧ p7Middle.Running ∧ p7Middle.N - p7Middle.off / 8 = 1) ∧
      (Supplied sevenBytes ∧ sevenBytes.Running ∧ 6 < sevenBytes.N - sevenBytes.off / 8) ∧ 2 ≤ 2 :=
  ⟨⟨p7_supplied, by decide⟩, ⟨p7_supplied, by decide, by decide⟩, ⟨sevenBytes_supplied, by decide, by decide⟩, by decide⟩

/-- The first position outside the buffer, a read that ends one byte behind it, a field that ends one bit
behind its byte, a one-byte window, and a state that meets the invariant. -/
theorem witness_OutOfRangeReadIsRefusedAndUnreachable :
    p7Start.N ≤ 3 ∧ p7Start.N < 2 + 2 ∧ 8 * [0x89#8].length < 7 + 2 ∧ [0x89#8] ≠ [] ∧ Inv p7Start :=
  ⟨by decide, by decide, by decide, by decide, p7Start_inv⟩

theorem witness_RunNeverChangesBuffer :
    step p7Start = .next p7Middle ∧ Host.Core.run Sys2Proof.core 2 p7Start = .next p7End := ⟨rfl, rfl⟩

/-- The last bit of the last byte, and a field that ends with it. -/
theorem witness_BitCursorExtractsMsbFirst :
    [0x89#8, 0xD8#8][15 / 8]? = some 0xD8#8 ∧ 13 + 3 ≤ 8 * [0x89#8, 0xD8#8].length := by decide

/-- The last bit of a byte, and a read of the whole buffer. -/
theorem witness_ByteOrderIsLowByteFirst :
    7 < 8 ∧ memRead p7Start 0 3 = .ok [0x89#8, 0xD8#8, 0x90#8] := ⟨by decide, rfl⟩

theorem witness_UnmatchedFirstByteIsUnsupported : matchForm 0x90#8 = none := by decide

theorem witness_DisplacementLengthTable : (0b111#3 : BitVec 3) ≠ 0b110#3 := by decide

theorem witness_RmOperandTable : (0b101#3 : BitVec 3) ≠ 0b110#3 := by decide

theorem witness_SignedDisplacementByParameter :
    (Sized.byte 0x80#8).size = 1 + false.toNat ∧ (Sized.half 0x8000#16).size = 1 + true.toNat ∧
      (signedDispOf .w true 0b01#2 (some (.byte 0x80#8))).isSome ∧
      (signedDispOf .field true 0b10#2 (some (.half 0x80#16))).isSome ∧
      modeOf 0b01#2 = .displace8 ∧ modeOf 0b10#2 = .displace16 ∧ modeOf 0b00#2 = .memory ∧
      modeOf 0b11#2 = .registerDirect := by decide

/-- Each clause, with the longest displacement. -/
theorem witness_DisplacementIsRawLittleEndian :
    decode [0x89#8, 0x87#8, 0x00#8, 0x10#8] = .ok (.movRmReg true 0b10#2 0b000#3 0b111#3 (some (.half 0x1000#16))) ∧
    decode [0x8A#8, 0x40#8, 0xFE#8] = .ok (.movRegRm false 0b01#2 0b000#3 0b000#3 (some (.byte 0xFE#8))) ∧
    decode [0xC6#8, 0x06#8, 0x10#8, 0x00#8, 0x05#8] =
      .ok (.movRmImm false 0b00#2 0b110#3 (some (.half 0x0010#16)) (.byte 0x05#8)) := by decide

theorem witness_ImmediateIsRawWithSignedView :
    decode [0xBF#8, 0xFF#8, 0xFF#8] = .ok (.movRegImm true 0b111#3 (.half 0xFFFF#16)) ∧
    decode [0xC6#8, 0x46#8, 0xFF#8, 0x80#8] =
      .ok (.movRmImm false 0b01#2 0b110#3 (some (.byte 0xFF#8)) (.byte 0x80#8)) := by decide

/-- Each form, with a window one byte too short and one that just holds it. -/
theorem witness_LengthAndTruncation :
    matchForm 0x8B#8 = some .rmReg ∧ [0x8B#8].length < 2 ∧ [0x8B#8, 0x46#8].length < 2 + dlen 0b01#2 0b110#3 ∧
      2 + dlen 0b01#2 0b110#3 ≤ [0x8B#8, 0x46#8, 0x00#8].length ∧
    matchForm 0xB8#8 = some .immReg ∧ [0xB8#8, 0x01#8].length < 2 + ((0xB8#8).getLsbD 3).toNat ∧
      2 + ((0xB8#8).getLsbD 3).toNat ≤ [0xB8#8, 0x01#8, 0x00#8].length ∧
    matchForm 0xC7#8 = some .immRm ∧
      [0xC7#8, 0x06#8, 0x10#8, 0x00#8, 0x05#8].length < 2 + dlen 0b00#2 0b110#3 + (1 + ((0xC7#8).getLsbD 0).toNat) ∧
      2 + dlen 0b00#2 0b110#3 + (1 + ((0xC7#8).getLsbD 0).toNat) ≤ [0xC7#8, 0x06#8, 0x10#8, 0x00#8, 0x05#8, 0x00#8].length ∧
    matchForm 0xA1#8 = some .accMem ∧ [0xA1#8, 0xFB#8].length < 2 + ((0xA1#8).getLsbD 0).toNat ∧
      2 + ((0xA1#8).getLsbD 0).toNat ≤ [0xA1#8, 0xFB#8, 0x09#8].length := by decide

/-- An instruction of each form that decodes. -/
theorem witness_InstructionLengthsPerForm :
    decode [0x89#8, 0xD8#8] = .ok (.movRmReg true 0b11#2 0b011#3 0b000#3 none) ∧
    decode [0xB0#8, 0xFF#8] = .ok (.movRegImm false 0b000#3 (.byte 0xFF#8)) ∧
    decode [0xC6#8, 0x03#8, 0x07#8] = .ok (.movRmImm false 0b00#2 0b011#3 none (.byte 0x07#8)) ∧
    decode [0xA1#8, 0x00#8, 0x00#8] = .ok (.movAxMem true (.half 0#16)) := by decide

/-- A second byte for each row of the length table. -/
theorem witness_FormOneDecodesRecord :
    (modField 0x07#8 = 0b00#2 ∧ rmField 0x07#8 ≠ 0b110#3) ∧ (modField 0x06#8 = 0b00#2 ∧ rmField 0x06#8 = 0b110#3) ∧
      modField 0x7F#8 = 0b01#2 ∧ modField 0x80#8 = 0b10#2 ∧ modField 0xC0#8 = 0b11#2 := by decide

theorem witness_FormOneLengthProperties :
    decode [0x8B#8, 0x1E#8, 0x34#8, 0x12#8] =
        .ok (.movRegRm true 0b00#2 0b011#3 0b110#3 (some (.half 0x1234#16))) ∧
      (Instr.movRegRm true 0b00#2 0b011#3 0b110#3 (some (.half 0x1234#16))).record =
        .rmReg true true 0b00#2 0b011#3 0b110#3 (some (.half 0x1234#16)) 4 ∧
      modeOf 0b00#2 = .memory ∧ modeOf 0b01#2 = .displace8 ∧ modeOf 0b10#2 = .displace16 ∧
      modeOf 0b11#2 = .registerDirect := by decide

/-- Windows one byte too short and just long enough, in the direct-address row. -/
theorem witness_MovRmRegResolvesOperands :
    [0x89#8, 0x06#8, 0x34#8].length < 2 + dlen 0b00#2 0b110#3 ∧
      2 + dlen 0b00#2 0b110#3 ≤ [0x89#8, 0x06#8, 0x34#8, 0x12#8].length := by decide

theorem witness_MovRegRmResolvesOperands :
    [0x8B#8, 0x46#8].length < 2 + dlen 0b01#2 0b110#3 ∧ 2 + dlen 0b01#2 0b110#3 ≤ [0x8B#8, 0x46#8, 0x00#8].length ∧
      4 ≤ (0b100#3).toNat := by decide

theorem witness_MovRegImmDecodesRecord :
    [0xB8#8, 0x01#8].length < 2 + true.toNat ∧ 2 + true.toNat ≤ [0xB8#8, 0x01#8, 0x00#8].length := by decide

theorem witness_MovRmImmDecodesRecord :
    [0xC6#8, 0x46#8, 0xFF#8].length < 2 + dlen 0b01#2 0b110#3 + 1 + false.toNat ∧
      2 + dlen 0b01#2 0b110#3 + 1 + false.toNat ≤ [0xC6#8, 0x46#8, 0xFF#8, 0x80#8].length := by decide

theorem witness_MovAxMemDecodesRecord :
    [0xA0#8].length < 2 + false.toNat ∧ 2 + false.toNat ≤ [0xA0#8, 0x10#8].length := by decide

theorem witness_MovMemAxDecodesRecord :
    [0xA3#8, 0x0F#8].length < 2 + true.toNat ∧ 2 + true.toNat ≤ [0xA3#8, 0x0F#8, 0x00#8].length := by decide

/-- Each outcome of the checks. -/
theorem witness_DecodeErrorPriority :
    matchForm 0xA4#8 = none ∧ decode [0xA4#8] = .err (.unsupportedOpcode 0xA4#8) ∧
      decode [0xC6#8] = .err (.truncatedInput 2 1) ∧ decode [0xA1#8, 0xFB#8] = .err (.truncatedInput 3 2) ∧
      decode [0xA2#8, 0xFF#8] = .ok (.movMemAx false (.byte 0xFF#8)) := by decide

theorem witness_BytesBeyondInstructionHaveNoEffect :
    decode [0x88#8, 0xC1#8, 0x90#8, 0x90#8] = .ok (.movRmReg false 0b11#2 0b000#3 0b001#3 none) := by decide

theorem witness_DecodeInvertsEncode :
    (Instr.movRmImm true 0b10#2 0b101#3 (some (.half 0x0385#16)) (.half 0x015B#16)).wellFormed = true := by decide

/-- A form with and a form without ignored bits. -/
theorem witness_DecodedBytesAreTheEncoding :
    decode [0x88#8, 0xC1#8] = .ok (.movRmReg false 0b11#2 0b000#3 0b001#3 none) ∧
      decode [0xC6#8, 0x38#8, 0x01#8] = .ok (.movRmImm false 0b00#2 0b000#3 none (.byte 0x01#8)) := by decide

/-- Running states whose window has exactly the instruction's length. -/
theorem witness_FormOneRecordsAndAdvances :
    (startRun [0x89#8, 0xD8#8] .field false).Running ∧
      2 + dlen 0b11#2 0b000#3 ≤ min 6 ((startRun [0x89#8, 0xD8#8] .field false).N - 0 / 8) := by decide

theorem witness_MovRegImmRecordsAndAdvances :
    p7Start.Running ∧ 2 + true.toNat ≤ min 6 (p7Start.N - p7Start.off / 8) := by decide

theorem witness_MovRmImmRecordsAndAdvances :
    p7Start.Running ∧ 2 + dlen 0b11#2 0b000#3 + (1 + false.toNat) ≤ min 6 (p7Start.N - p7Start.off / 8) := by decide

theorem witness_FormFourRecordsAndAdvances :
    p7Start.Running ∧ 2 + true.toNat ≤ min 6 (p7Start.N - p7Start.off / 8) := by decide

/-- One byte is left and the shortest instruction has two. -/
theorem witness_InstructionLongerThanWindowTruncates :
    p7Middle.Running ∧ min 6 (p7Middle.N - p7Middle.off / 8) < (Instr.movRegImm false 0b000#3 (.byte 0#8)).len := by decide

/-- Both clauses. -/
theorem witness_InstructionFrame :
    (exec (.movRmReg true 0b11#2 0b011#3 0b000#3 none) p7Start = .next p7Middle ∧
      (Instr.movRmReg true 0b11#2 0b011#3 0b000#3 none).len ≤ min 6 (p7Start.N - p7Start.off / 8)) ∧
    (exec (.movMemAx true (.half 0#16)) p7Middle =
        .next { p7Middle with halt := some ⟨.truncatedInput, 2, none⟩ } ∧
      min 6 (p7Middle.N - p7Middle.off / 8) < (Instr.movMemAx true (.half 0#16)).len) :=
  ⟨⟨rfl, by decide⟩, rfl, by decide⟩

theorem witness_FetchWordIsRunByNextStep :
    decodeTableWord 8 0xC7 = some (.movRmImm true 0b00#2 0b000#3 none (.half 0#16)) := by decide

theorem witness_EveryRunEnds : Inv p7Start ∧ step p7Start = .next p7Middle ∧ p7Middle.halt = none :=
  ⟨p7Start_inv, rfl, rfl⟩

theorem witness_AssembledRunListsItsInstructions :
    ∀ i ∈ [Instr.movRmReg true 0b11#2 0b011#3 0b000#3 none, .movAxMem false (.byte 0x10#8)], i.wellFormed = true := by
  decide

theorem witness_FailureReportNamesKindOffsetRaw : Inv p7End ∧ p7End.Failed := ⟨p7End_inv, by decide⟩

theorem witness_AddressAndKeywordText : rmOperand 0b11#2 0b000#3 true none = some (.reg .ax) := by decide

/-- A successful and a failing step, and a wide form-1 operand whose suffix depends on DISP_SIGN_BY. -/
theorem witness_TextGrowsByOneLinePerRecord :
    (Inv p7Start ∧ step p7Start = .next p7Middle ∧ p7Middle.halt = none) ∧
      (Inv p7Middle ∧ step p7Middle = .next p7End ∧ p7End.Failed) ∧
      rmOperand 0b01#2 0b110#3 true (some (.byte 0xFC#8)) = some (.mem .bp (some (.byte 0xFC#8))) :=
  ⟨⟨p7Start_inv, rfl, rfl⟩, ⟨p7Middle_inv, rfl, by decide⟩, by decide⟩

theorem witness_TextStreamTerminatesEachLine :
    State.reset.text = some ["bits 16"] ∧ (Inv p7Start ∧ step p7Start = .next p7Middle ∧ p7Middle.halt = none) ∧
      (Inv p7Middle ∧ step p7Middle = .next p7End ∧ p7End.Failed) :=
  ⟨by decide, ⟨p7Start_inv, rfl, rfl⟩, p7Middle_inv, rfl, by decide⟩

/-- A form-1 and a form-3 window, each with the direct address. -/
theorem witness_DerivedOutputsOfRecords :
    decode [0x8B#8, 0x1E#8, 0x34#8, 0x12#8] =
        .ok (.movRegRm true 0b00#2 0b011#3 0b110#3 (some (.half 0x1234#16))) ∧
      decode [0xC6#8, 0x06#8, 0x10#8, 0x00#8, 0x05#8] =
        .ok (.movRmImm false 0b00#2 0b110#3 (some (.half 0x0010#16)) (.byte 0x05#8)) := by decide

end Sys2Proof.Tests
end

section
/-! PROOF. The Bit Cursor reads most significant bit first (O15): a field is the weighted sum of its stream
bits, and a field that stays within one byte is a slice of that byte. -/

namespace Sys2Proof

/-! ## One bit of the stream (R7) -/

theorem streamBit_of_getElem? {b : List Byte} {i : Nat} {v : Byte} (h : b[i / 8]? = some v) :
    streamBit b i = some (v.getLsbD (7 - i % 8)) := by
  simp [streamBit, h]

theorem streamBit_in_byte {b : List Byte} {k j : Nat} {v : Byte} (h : b[k]? = some v) (hj : j < 8) :
    streamBit b (8 * k + j) = some (v.getLsbD (7 - j)) := by
  have hdiv : (8 * k + j) / 8 = k := by omega
  have hmod : (8 * k + j) % 8 = j := by omega
  have hbyte : b[(8 * k + j) / 8]? = some v := by rw [hdiv, h]
  rw [streamBit_of_getElem? hbyte, hmod]

theorem streamBit_total {b : List Byte} {i : Nat} (h : i < 8 * b.length) : ∃ s, streamBit b i = some s :=
  ⟨_, streamBit_of_getElem? (List.getElem?_eq_getElem (by omega))⟩

/-! ## A field of the stream (R7) -/

@[simp] theorem cursorField_zero (b : List Byte) (o : Nat) : cursorField b o 0 = some 0 := rfl

theorem cursorField_succ {b : List Byte} {o n x : Nat} {s : Bool} (hx : cursorField b o n = some x)
    (hs : streamBit b (o + n) = some s) : cursorField b o (n + 1) = some (2 * x + s.toNat) := by
  simp [cursorField, hx, hs]

/-- Reading one more bit doubles the weight of every bit read before it. -/
theorem sum_descending_weights_succ (f : Nat → Nat) (n : Nat) :
    ∑ j ∈ Finset.range (n + 1), f j * 2 ^ (n - j) =
      2 * ∑ j ∈ Finset.range n, f j * 2 ^ (n - 1 - j) + f n := by
  have hdouble : ∀ j ∈ Finset.range n, f j * 2 ^ (n - j) = 2 * (f j * 2 ^ (n - 1 - j)) := by
    intro j hj
    have hexp : n - j = n - 1 - j + 1 := by have := Finset.mem_range.1 hj; omega
    rw [hexp, pow_succ]; ring
  rw [Finset.sum_range_succ, Finset.sum_congr rfl hdouble, ← Finset.mul_sum]
  simp

theorem cursorField_eq_sum (b : List Byte) (o n : Nat) (h : o + n ≤ 8 * b.length) :
    cursorField b o n =
      some (∑ j ∈ Finset.range n, ((streamBit b (o + j)).getD false).toNat * 2 ^ (n - 1 - j)) := by
  induction n with
  | zero => simp
  | succ n ih =>
    obtain ⟨s, hs⟩ := streamBit_total (b := b) (i := o + n) (by omega)
    rw [cursorField_succ (ih (by omega)) hs, Nat.add_sub_cancel, sum_descending_weights_succ, hs,
      Option.getD_some]

/-! ## A field within one byte -/

/-- A slice is the slice above its lowest bit, followed by that bit. -/
theorem extractLsb'_succ_toNat (v : Byte) (s n : Nat) :
    (v.extractLsb' s (n + 1)).toNat = 2 * (v.extractLsb' (s + 1) n).toNat + (v.getLsbD s).toNat := by
  have hbit : (v.getLsbD s).toNat = v.toNat / 2 ^ s % 2 := by
    rw [BitVec.getLsbD, Nat.toNat_testBit]
  have hsplit : v.toNat / 2 ^ s % 2 ^ (n + 1) =
      v.toNat / 2 ^ s % 2 + 2 * (v.toNat / 2 ^ (s + 1) % 2 ^ n) := by
    rw [pow_succ', Nat.mod_mul, Nat.div_div_eq_div_mul, ← pow_succ]
  simp only [BitVec.extractLsb'_toNat, Nat.shiftRight_eq_div_pow, hbit, hsplit]
  omega

theorem cursorField_in_byte {b : List Byte} {k : Nat} {v : Byte} (h : b[k]? = some v) (j n : Nat)
    (hn : j + n ≤ 8) : cursorField b (8 * k + j) n = some (v.extractLsb' (8 - (j + n)) n).toNat := by
  induction n with
  | zero => simp
  | succ n ih =>
    have hs : streamBit b (8 * k + j + n) = some (v.getLsbD (8 - (j + (n + 1)))) := by
      rw [Nat.add_assoc, streamBit_in_byte h (by omega)]
      congr 2; omega
    have hstart : 8 - (j + n) = 8 - (j + (n + 1)) + 1 := by omega
    rw [cursorField_succ (ih (by omega)) hs, extractLsb'_succ_toNat, hstart]

theorem cursorField_bit_in_byte {b : List Byte} {k j : Nat} {v : Byte} (h : b[k]? = some v) (hj : j < 8) :
    cursorField b (8 * k + j) 1 = some (v.getLsbD (7 - j)).toNat := by
  simpa using cursorField_succ (cursorField_zero b (8 * k + j)) (streamBit_in_byte h hj)

/-- Every field the block extracts is a slice of one byte: the positions are R61 to R63's, counted from
the most significant bit. -/
theorem cursorField_extracts_fields (b : List Byte) (k : Nat) (v : Byte) (h : b[k]? = some v) :
    cursorField b (8 * k) 2 = some (modField v).toNat ∧
    cursorField b (8 * k + 2) 3 = some (regField v).toNat ∧
    cursorField b (8 * k + 5) 3 = some (rmField v).toNat ∧
    cursorField b (8 * k + 6) 1 = some (directionBit v).toNat ∧
    cursorField b (8 * k + 7) 1 = some (wideBit v).toNat ∧
    cursorField b (8 * k + 4) 1 = some (wideBitImmReg v).toNat ∧
    cursorField b (8 * k + 5) 3 = some (regFieldImmReg v).toNat :=
  ⟨cursorField_in_byte h 0 2 (by decide), cursorField_in_byte h 2 3 (by decide),
    cursorField_in_byte h 5 3 (by decide), cursorField_bit_in_byte h (by decide),
    cursorField_bit_in_byte h (by decide), cursorField_bit_in_byte h (by decide),
    cursorField_in_byte h 5 3 (by decide)⟩

/-- Settles O15: the sum by induction on the number of bits, and each field as a slice of its byte. -/
theorem bitCursorExtractsMsbFirst : Obligations.BitCursorExtractsMsbFirst :=
  ⟨fun _ _ _ => streamBit_of_getElem?, cursorField_eq_sum, cursorField_extracts_fields, le16_toNat⟩

end Sys2Proof
end

section
/-! PROOF. The buffer is a read-only parameter of the run (O12, R34), and the run status is derived from the
offset and the latch (O8, R33). -/

namespace Sys2Proof.Machine

/-! ## What a step and a run can reach -/

/-- The next state of a step, given whole: the record of the decoded instruction accepted, or the decode's
error latched. -/
theorem step_accepts_or_latches {s t : State} (h : step s = .next t) :
    s.Running ∧ ∃ b, windowAt s s.pos = .ok b ∧
      ((∃ i, decode b = .ok i ∧ t = accept i.record s) ∨ (∃ e, decode b = .err e ∧ t = takeError e s)) := by
  obtain ⟨hr, b, hw, ⟨i, hd, hexec⟩ | hlatch⟩ := step_cases h
  · rw [exec_of_decoded hr hw hd] at hexec
    cases hexec
    exact ⟨hr, b, hw, .inl ⟨i, hd, rfl⟩⟩
  · exact ⟨hr, b, hw, .inr hlatch⟩

/-- What every step keeps, every run keeps. -/
theorem run_preserves {P : State → Prop} (hstep : ∀ s t, step s = .next t → P s → P t) {k : Nat}
    {s t : State} (h : Host.Core.run Sys2Proof.core k s = .next t) (hs : P s) : P t := by
  induction k generalizing s with
  | zero => cases h; exact hs
  | succ k ih =>
    obtain ⟨s', hfirst, hrest⟩ := run_succ_eq_next h
    exact ih hrest (hstep s s' hfirst hs)

/-! ## The buffer (R34) -/

theorem step_keeps_buffer {s t : State} (h : step s = .next t) : t.buf = s.buf ∧ t.N = s.N := by
  obtain ⟨-, b, -, ⟨i, -, rfl⟩ | ⟨e, -, rfl⟩⟩ := step_accepts_or_latches h
  · exact ⟨accept_buf i.record s, accept_N i.record s⟩
  · exact ⟨takeError_buf e s, takeError_N e s⟩

theorem run_keeps_buffer {k : Nat} {s t : State} (h : Host.Core.run Sys2Proof.core k s = .next t) :
    t.buf = s.buf ∧ t.N = s.N := by
  refine run_preserves (P := fun u => u.buf = s.buf ∧ u.N = s.N) ?_ h ⟨rfl, rfl⟩
  intro u v huv ⟨hbuf, hN⟩
  obtain ⟨hbuf', hN'⟩ := step_keeps_buffer huv
  exact ⟨hbuf'.trans hbuf, hN'.trans hN⟩

/-- Settles O12: a step only accepts a record or latches an error, and a run repeats steps. -/
theorem runNeverChangesBuffer : Obligations.RunNeverChangesBuffer := by
  refine ⟨fun _ _ => step_keeps_buffer, fun k s t h => ?_⟩
  obtain ⟨hbuf, hN⟩ := run_keeps_buffer h
  exact ⟨hN, fun a => by rw [hbuf]⟩

/-! ## The run status (R33) -/

theorem status_finished_of_bounded {s : State} (hoff : s.off ≤ 8 * s.N) :
    s.status = .finished ↔ s.Finished := by
  rw [status_finished, State.Finished, hoff.ge_iff_eq]

/-- Settles O8: the bound of R30 turns "at or above the end" into "at the end", and a step goes on from a
running state only. -/
theorem runStatusIsDerived : Obligations.RunStatusIsDerived := fun _ hoff =>
  ⟨status_running, status_finished_of_bounded hoff, status_failed,
    fun hnot _ hstep => hnot (status_running.2 (step_cases hstep).1)⟩

end Sys2Proof.Machine
end

section
/-! PROOF. The opcode matcher (O17, R65; O18, R67), the mode and displacement-length tables (O19, R68; O22,
R72) and the Register Namer (O20, R70). -/

namespace Sys2Proof

/-! ## The matcher (R65) -/

/-- The first entry decides where its masked value matches, and the rest of the table where it does not. -/
theorem map_form_find?_cons (b0 : Byte) (e : OpcodeEntry) (es : List OpcodeEntry) :
    ((e :: es).find? fun e => b0 &&& e.mask == e.value).map (·.form) =
      if b0 &&& e.mask = e.value then some e.form
      else (es.find? fun e => b0 &&& e.mask == e.value).map (·.form) := by
  split_ifs with h
  · have hbeq : (b0 &&& e.mask == e.value) = true := beq_iff_eq.2 h
    simp only [List.find?_cons, hbeq, Option.map_some]
  · have hbeq : (b0 &&& e.mask == e.value) = false := beq_eq_false_iff_ne.2 h
    simp only [List.find?_cons, hbeq]

theorem matchForm_eq_ite (b0 : Byte) :
    matchForm b0 =
      if b0 &&& 0xFC#8 = 0x88#8 then some .rmReg
      else if b0 &&& 0xF0#8 = 0xB0#8 then some .immReg
      else if b0 &&& 0xFE#8 = 0xC6#8 then some .immRm
      else if b0 &&& 0xFC#8 = 0xA0#8 then some .accMem
      else none := by
  simp only [matchForm, opcodeTable, map_form_find?_cons, List.find?_nil, Option.map_none]

theorem matchForm_eq_rmReg_iff (b0 : Byte) :
    matchForm b0 = some .rmReg ↔ b0.toNat ∈ [0x88, 0x89, 0x8A, 0x8B] := by
  revert b0; decide

theorem matchForm_eq_immReg_iff (b0 : Byte) :
    matchForm b0 = some .immReg ↔ 0xB0 ≤ b0.toNat ∧ b0.toNat ≤ 0xBF := by
  revert b0; decide

theorem matchForm_eq_immRm_iff (b0 : Byte) : matchForm b0 = some .immRm ↔ b0.toNat ∈ [0xC6, 0xC7] := by
  revert b0; decide

theorem matchForm_eq_accMem_iff (b0 : Byte) :
    matchForm b0 = some .accMem ↔ b0.toNat ∈ [0xA0, 0xA1, 0xA2, 0xA3] := by
  revert b0; decide

/-- Settles O17: the table's order, and each form's first bytes. -/
theorem matcherComparesFourMaskedPatterns : Obligations.MatcherComparesFourMaskedPatterns := fun b0 =>
  ⟨matchForm_eq_ite b0, matchForm_eq_rmReg_iff b0, matchForm_eq_immReg_iff b0, matchForm_eq_immRm_iff b0,
    matchForm_eq_accMem_iff b0⟩

/-! ## The arm the first byte chooses (R78) -/

theorem decode_of_unmatched {b0 : Byte} (h : matchForm b0 = none) (tail : List Byte) :
    decode (b0 :: tail) = .err (.unsupportedOpcode b0) := by
  rw [decode_cons, h]

theorem decode_of_rmReg {b0 : Byte} (h : matchForm b0 = some .rmReg) (tail : List Byte) :
    decode (b0 :: tail) = decodeRmReg (b0 :: tail) b0 := by
  rw [decode_cons, h]

theorem decode_of_immReg {b0 : Byte} (h : matchForm b0 = some .immReg) (tail : List Byte) :
    decode (b0 :: tail) = decodeImmReg (b0 :: tail) b0 := by
  rw [decode_cons, h]

theorem decode_of_immRm {b0 : Byte} (h : matchForm b0 = some .immRm) (tail : List Byte) :
    decode (b0 :: tail) = decodeImmRm (b0 :: tail) b0 := by
  rw [decode_cons, h]

theorem decode_of_accMem {b0 : Byte} (h : matchForm b0 = some .accMem) (tail : List Byte) :
    decode (b0 :: tail) = decodeAccMem (b0 :: tail) b0 := by
  rw [decode_cons, h]

/-- Of each quarter of the first bytes 64, 64, 40 and 62 match no form. -/
theorem unmatched_of_each_quarter :
    [0, 64, 128, 192].map (fun p => ((List.range 64).filter fun n =>
      (matchForm (BitVec.ofNat 8 (p + n))).isNone).length) = [64, 64, 40, 62] := by decide

/-- A count below 256 is the sum of its counts in the four quarters. -/
theorem filter_range_256_length (p : Nat → Bool) :
    ((List.range 256).filter p).length =
      ([0, 64, 128, 192].map fun k => ((List.range 64).filter fun n => p (k + n)).length).sum := by
  have hquarters : 256 = 64 + 64 + 64 + 64 := rfl
  rw [hquarters, List.range_add, List.range_add, List.range_add]
  simp [List.filter_map, Function.comp_def]

/-- Settles O18: the decode asks the matcher before it reads a second byte; the census is over the 256
first bytes. -/
theorem unmatchedFirstByteIsUnsupported : Obligations.UnmatchedFirstByteIsUnsupported :=
  ⟨fun _ rest h => decode_of_unmatched h rest, (filter_range_256_length _).trans (congrArg List.sum unmatched_of_each_quarter), rfl, rfl⟩

/-! ## Modes and displacement lengths (R68, R72) -/

@[simp] theorem modeOf_memory : modeOf 0b00#2 = .memory := rfl

@[simp] theorem modeOf_displace8 : modeOf 0b01#2 = .displace8 := rfl

@[simp] theorem modeOf_displace16 : modeOf 0b10#2 = .displace16 := rfl

@[simp] theorem modeOf_registerDirect : modeOf 0b11#2 = .registerDirect := rfl

/-- Settles O19: the four rows of the resolver. -/
theorem modeResolverTable : Obligations.ModeResolverTable :=
  ⟨modeOf_memory, modeOf_displace8, modeOf_displace16, modeOf_registerDirect⟩

theorem dlen_memory (rm : BitVec 3) : dlen 0b00#2 rm = if rm = 0b110#3 then 2 else 0 := rfl

@[simp] theorem dlen_displace8 (rm : BitVec 3) : dlen 0b01#2 rm = 1 := rfl

@[simp] theorem dlen_displace16 (rm : BitVec 3) : dlen 0b10#2 rm = 2 := rfl

@[simp] theorem dlen_registerDirect (rm : BitVec 3) : dlen 0b11#2 rm = 0 := rfl

/-- Settles O22: rm matters in mode Memory only. -/
theorem displacementLengthTable : Obligations.DisplacementLengthTable := fun rm =>
  ⟨dlen_memory 0b110#3, fun h => (dlen_memory rm).trans (if_neg h), dlen_displace8 rm, dlen_displace16 rm,
    dlen_registerDirect rm⟩

/-! ## The Register Namer (R70) -/

/-- The code and width of a register: the Register Namer read backwards. -/
def regCode : Reg → BitVec 3 × Bool
  | .al => (0, false) | .ax => (0, true)
  | .cl => (1, false) | .cx => (1, true)
  | .dl => (2, false) | .dx => (2, true)
  | .bl => (3, false) | .bx => (3, true)
  | .ah => (4, false) | .sp => (4, true)
  | .ch => (5, false) | .bp => (5, true)
  | .dh => (6, false) | .si => (6, true)
  | .bh => (7, false) | .di => (7, true)

theorem regCode_regName (code : BitVec 3) (w : Bool) : regCode (regName code w) = (code, w) := by
  revert code w; decide

theorem regName_regCode (r : Reg) : regName (regCode r).1 (regCode r).2 = r := by
  cases r <;> rfl

theorem regName_injective (w : Bool) : Function.Injective fun code => regName code w := by
  intro c c' h
  simpa [regCode_regName] using congrArg regCode h

/-- Settles O20: `regCode` is a two-sided inverse. -/
theorem registerNamerIsBijective : Obligations.RegisterNamerIsBijective :=
  ⟨regName_injective,
    Function.bijective_iff_has_inverse.2 ⟨regCode, fun p => regCode_regName p.1 p.2, regName_regCode⟩⟩

end Sys2Proof
end

section
/-! PROOF. The displacement and the immediate of a decoded instruction are raw fields of its window (O25, R73;
O26, R75). -/

namespace Sys2Proof
open Machine

/-! ## A field that was read stands in the window (R42) -/

theorem fieldAt_of_immVal {b : List Byte} {k : Nat} {w : Bool} {f : Sized} (h : immVal b k w = some f) :
    FieldAt b k w f := by
  cases w with
  | false =>
    obtain ⟨v, hv, rfl⟩ := Option.map_eq_some_iff.1 (show (b[k]?).map Sized.byte = some f from h)
    exact ⟨v, hv, rfl⟩
  | true =>
    simp only [immVal, Bool.toNat_true, Nat.reduceAdd, sizedAt] at h
    split at h
    · next lo hi hlo hhi =>
      cases h
      exact ⟨lo, hi, le16 lo hi, hlo, hhi, rfl, le16_toNat lo hi⟩
    · cases h

/-- A displacement is read as the field of its size at window byte 2. -/
theorem dispAt_of_dispVal {b : List Byte} {dl : Nat} {disp : Option Disp} (h : dispVal b dl = some disp) :
    DispAt b dl disp := by
  refine ⟨?_, ?_, ?_⟩
  · rintro rfl
    exact (Option.some.inj h).symm
  · rintro rfl
    obtain ⟨f, hf, rfl⟩ := Option.map_eq_some_iff.1 h
    exact ⟨f, rfl, fieldAt_of_immVal (w := false) hf⟩
  · rintro rfl
    obtain ⟨f, hf, rfl⟩ := Option.map_eq_some_iff.1 h
    exact ⟨f, rfl, fieldAt_of_immVal (w := true) hf⟩

/-! ## What a decoded instruction holds -/

/-- The displacement, immediate and address of an instruction are what the field readers give for the
window, at the positions R61 to R64 lay them out. -/
def Instr.FieldsReadFrom (b : List Byte) : Instr → Prop
  | .movRmReg _ mod _ rm disp => dispVal b (dlen mod rm) = some disp
  | .movRegRm _ mod _ rm disp => dispVal b (dlen mod rm) = some disp
  | .movRegImm w _ imm => immVal b 1 w = some imm
  | .movRmImm w mod rm disp imm =>
    dispVal b (dlen mod rm) = some disp ∧ immVal b (2 + dlen mod rm) w = some imm
  | .movAxMem w addr => immVal b 1 w = some addr
  | .movMemAx w addr => immVal b 1 w = some addr

theorem decode_fieldsReadFrom {b : List Byte} {i : Instr} (h : decode b = .ok i) : i.FieldsReadFrom b := by
  rcases decode_ok_cases h with ⟨b0, b1, tail, disp, -, -, -, hdisp, rfl⟩ | ⟨b0, tail, imm, -, -, -, himm, rfl⟩ |
    ⟨b0, b1, tail, disp, imm, -, -, -, hdisp, himm, rfl⟩ | ⟨b0, tail, addr, -, -, -, haddr, rfl⟩
  · split <;> exact hdisp
  · exact himm
  · exact ⟨hdisp, himm⟩
  · split <;> exact haddr

/-- Settles O25: what the displacement reader gave stands in the window from byte 2 on. -/
theorem displacementIsRawLittleEndian : Obligations.DisplacementIsRawLittleEndian := fun _ _ _ _ _ _ _ =>
  ⟨fun h => dispAt_of_dispVal (decode_fieldsReadFrom h), fun h => dispAt_of_dispVal (decode_fieldsReadFrom h),
    fun h => dispAt_of_dispVal (decode_fieldsReadFrom h).1⟩

/-- `signed_8` and `signed_16` are the two's complement of R8. -/
theorem signedImm_eq_twosComplement (imm : Imm) : signedImm imm = twosComplement imm := by
  cases imm with
  | byte v => simp only [signedImm, Sized.signed, twosComplement, BitVec.toInt]; split_ifs <;> omega
  | half h => simp only [signedImm, Sized.signed, twosComplement, BitVec.toInt]; split_ifs <;> omega

/-- Settles O26: what the immediate reader gave stands in the window, and the signed view depends on the
immediate alone. -/
theorem immediateIsRawWithSignedView : Obligations.ImmediateIsRawWithSignedView :=
  fun _ _ _ _ _ _ imm =>
    have hsimm := congrArg some (signedImm_eq_twosComplement imm)
    ⟨fun h => ⟨fieldAt_of_immVal (decode_fieldsReadFrom h), hsimm⟩,
      fun h => ⟨fieldAt_of_immVal (decode_fieldsReadFrom h).2, hsimm⟩⟩

end Sys2Proof
end

section
/-! PROOF. The exact length of each form (O27, R76; O28, R60). -/

namespace Sys2Proof

/-! ## The values of the length functions (R60) -/

theorem lenRmReg_mem (mod : BitVec 2) (rm : BitVec 3) : lenRmReg mod rm ∈ [2, 3, 4] := by
  revert mod rm; decide

theorem lenImmReg_mem (w : Bool) : lenImmReg w ∈ [2, 3] := by
  revert w; decide

theorem lenImmRm_mem (w : Bool) (mod : BitVec 2) (rm : BitVec 3) : lenImmRm w mod rm ∈ [3, 4, 5, 6] := by
  revert w mod rm; decide

theorem lenAccMem_mem (w : Bool) : lenAccMem w ∈ [2, 3] := by
  revert w; decide

/-! ## Truncation exactly below the length (R76) -/

/-- The window decodes to an instruction of the form and length where it holds that many bytes, and is
truncated where it does not. -/
def DecodesExactlyAt (b : List Byte) (form : Form) (len : Nat) : Prop :=
  (b.length < len → decode b = .err (.truncatedInput len b.length)) ∧
  (len ≤ b.length → ∃ i, decode b = .ok i ∧ i.form = form ∧ i.record.len = len)

/-- Forms 1 and 3 have no length without `b_1`. -/
theorem withSecondByte_of_lt {b : List Byte} (h : b.length < 2) (k : Byte → DecodeResult) :
    withSecondByte b k = .err (.truncatedInput 2 b.length) := checkLength_of_lt h _

theorem decode_rmReg_without_second_byte {b0 : Byte} (hm : matchForm b0 = some .rmReg) {tail : List Byte}
    (h : (b0 :: tail).length < 2) : decode (b0 :: tail) = .err (.truncatedInput 2 (b0 :: tail).length) := by
  rw [decode_of_rmReg hm, decodeRmReg, withSecondByte_of_lt h]

theorem decode_immRm_without_second_byte {b0 : Byte} (hm : matchForm b0 = some .immRm) {tail : List Byte}
    (h : (b0 :: tail).length < 2) : decode (b0 :: tail) = .err (.truncatedInput 2 (b0 :: tail).length) := by
  rw [decode_of_immRm hm, decodeImmRm, withSecondByte_of_lt h]

theorem decodesExactlyAt_rmReg {b0 : Byte} (hm : matchForm b0 = some .rmReg) (b1 : Byte) (tail : List Byte) :
    DecodesExactlyAt (b0 :: b1 :: tail) .rmReg (lenRmReg (modField b1) (rmField b1)) := by
  obtain ⟨hshort, hlong⟩ := decodeRmReg_cons b0 b1 tail
  unfold DecodesExactlyAt
  rw [decode_of_rmReg hm]
  refine ⟨hshort, fun h => ?_⟩
  obtain ⟨disp, -, hok⟩ := hlong h
  exact ⟨_, hok, by split <;> rfl, by split <;> rfl⟩

theorem decodesExactlyAt_immReg {b0 : Byte} (hm : matchForm b0 = some .immReg) (tail : List Byte) :
    DecodesExactlyAt (b0 :: tail) .immReg (lenImmReg (wideBitImmReg b0)) := by
  obtain ⟨hshort, hlong⟩ := decodeImmReg_cons b0 tail
  unfold DecodesExactlyAt
  rw [decode_of_immReg hm]
  refine ⟨hshort, fun h => ?_⟩
  obtain ⟨imm, -, hok⟩ := hlong h
  exact ⟨_, hok, rfl, rfl⟩

theorem decodesExactlyAt_immRm {b0 : Byte} (hm : matchForm b0 = some .immRm) (b1 : Byte) (tail : List Byte) :
    DecodesExactlyAt (b0 :: b1 :: tail) .immRm (lenImmRm (wideBit b0) (modField b1) (rmField b1)) := by
  obtain ⟨hshort, hlong⟩ := decodeImmRm_cons b0 b1 tail
  unfold DecodesExactlyAt
  rw [decode_of_immRm hm]
  refine ⟨hshort, fun h => ?_⟩
  obtain ⟨disp, imm, -, -, hok⟩ := hlong h
  exact ⟨_, hok, rfl, rfl⟩

theorem decodesExactlyAt_accMem {b0 : Byte} (hm : matchForm b0 = some .accMem) (tail : List Byte) :
    DecodesExactlyAt (b0 :: tail) .accMem (lenAccMem (wideBit b0)) := by
  obtain ⟨hshort, hlong⟩ := decodeAccMem_cons b0 tail
  unfold DecodesExactlyAt
  rw [decode_of_accMem hm]
  refine ⟨hshort, fun h => ?_⟩
  obtain ⟨addr, -, hok⟩ := hlong h
  exact ⟨_, hok, by split <;> rfl, by split <;> rfl⟩

/-- A window that holds `b_1` is its first two bytes and a tail. -/
theorem eq_cons_of_second_byte {b0 b1 : Byte} {rest : List Byte} (h : (b0 :: rest)[1]? = some b1) :
    ∃ tail, rest = b1 :: tail := by
  cases rest with
  | nil => cases h
  | cons b1' tail => cases h; exact ⟨tail, rfl⟩

/-- Settles O27: each form's arm truncates below its length and decodes from there on. -/
theorem lengthAndTruncation : Obligations.LengthAndTruncation := by
  intro b0 rest b
  refine ⟨fun hm => ⟨decode_rmReg_without_second_byte hm, fun b1 h1 => ?_⟩,
    fun hm => decodesExactlyAt_immReg hm rest,
    fun hm => ⟨decode_immRm_without_second_byte hm, fun b1 h1 => ?_⟩,
    fun hm => decodesExactlyAt_accMem hm rest⟩
  · obtain ⟨tail, rfl⟩ := eq_cons_of_second_byte h1
    exact decodesExactlyAt_rmReg hm b1 tail
  · obtain ⟨tail, rfl⟩ := eq_cons_of_second_byte h1
    have hlen := lenImmRm_mem (wideBit b0) (modField b1) (rmField b1)
    have hbounds : ∀ n ∈ [3, 4, 5, 6], 3 ≤ n ∧ n ≤ 6 := by decide
    obtain ⟨hmin, hmax⟩ := hbounds _ hlen
    exact ⟨hmin, hmax, decodesExactlyAt_immRm hm b1 tail⟩

/-! ## The lengths of decoded instructions (R60) -/

/-- The length's range follows from the form alone. -/
theorem len_mem_of_form (i : Instr) :
    (i.form = .rmReg → i.len ∈ [2, 3, 4]) ∧ (i.form = .immReg → i.len ∈ [2, 3]) ∧
      (i.form = .immRm → i.len ∈ [3, 4, 5, 6]) ∧ (i.form = .accMem → i.len ∈ [2, 3]) := by
  cases i with
  | movRmReg w mod reg rm disp => exact ⟨fun _ => lenRmReg_mem mod rm, nofun, nofun, nofun⟩
  | movRegRm w mod reg rm disp => exact ⟨fun _ => lenRmReg_mem mod rm, nofun, nofun, nofun⟩
  | movRegImm w reg imm => exact ⟨nofun, fun _ => lenImmReg_mem w, nofun, nofun⟩
  | movRmImm w mod rm disp imm => exact ⟨nofun, nofun, fun _ => lenImmRm_mem w mod rm, nofun⟩
  | movAxMem w addr => exact ⟨nofun, nofun, nofun, fun _ => lenAccMem_mem w⟩
  | movMemAx w addr => exact ⟨nofun, nofun, nofun, fun _ => lenAccMem_mem w⟩

/-- A window of one byte is unsupported or truncated: every length is at least 2. -/
theorem decode_singleton_is_error (b0 : Byte) : ∃ e, decode [b0] = .err e := by
  have hone : [b0].length < 2 := Nat.lt_succ_self 1
  cases hm : matchForm b0 with
  | none => exact ⟨_, decode_of_unmatched hm []⟩
  | some form =>
    cases form with
    | rmReg => exact ⟨_, decode_rmReg_without_second_byte hm hone⟩
    | immReg => exact ⟨_, (decodesExactlyAt_immReg hm []).1 (Nat.lt_add_right _ hone)⟩
    | immRm => exact ⟨_, decode_immRm_without_second_byte hm hone⟩
    | accMem => exact ⟨_, (decodesExactlyAt_accMem hm []).1 (Nat.lt_add_right _ hone)⟩

/-- Settles O28: the form bounds the length, the length check bounds it by the window, and one byte is
below every length. -/
theorem instructionLengthsPerForm : Obligations.InstructionLengthsPerForm := by
  refine ⟨fun b i h => ?_, decode_singleton_is_error⟩
  obtain ⟨hrmReg, himmReg, himmRm, haccMem⟩ := len_mem_of_form i
  exact ⟨hrmReg, himmReg, himmRm, haccMem, decode_len h⟩

end Sys2Proof
end

section
/-! PROOF. Form 1 decodes to its record (O29, R100) with the lengths of R103 (O30), and MOV r/m, reg resolves its
operands (O31, R101). -/

namespace Sys2Proof
open Machine

/-! ## The first byte of form 1 (R61) -/

/-- `100010dw`. -/
def formOneByte (d w : Bool) : Byte := 0b100010#6 ++ BitVec.ofBool d ++ BitVec.ofBool w

@[simp] theorem matchForm_formOneByte (d w : Bool) : matchForm (formOneByte d w) = some .rmReg := by
  revert d w; decide

@[simp] theorem directionBit_formOneByte (d w : Bool) : directionBit (formOneByte d w) = d := by
  revert d w; decide

@[simp] theorem wideBit_formOneByte (d w : Bool) : wideBit (formOneByte d w) = w := by
  revert d w; decide

/-- The first byte of MOV r/m, reg is form 1's with d = 0. -/
theorem movRmReg_byte_eq_formOneByte (w : Bool) : (0b1000100#7 ++ BitVec.ofBool w : Byte) = formOneByte false w := by
  revert w; decide

/-! ## The decode of form 1 (R100) -/

theorem decode_formOneByte_alone (d w : Bool) : decode [formOneByte d w] = .err (.truncatedInput 2 1) :=
  decode_rmReg_without_second_byte (matchForm_formOneByte d w) (tail := []) (Nat.lt_succ_self 1)

theorem decode_formOne_of_short {d w : Bool} {b1 : Byte} {tail : List Byte}
    (h : (formOneByte d w :: b1 :: tail).length < lenRmReg (modField b1) (rmField b1)) :
    decode (formOneByte d w :: b1 :: tail) =
      .err (.truncatedInput (lenRmReg (modField b1) (rmField b1)) (formOneByte d w :: b1 :: tail).length) :=
  (decodesExactlyAt_rmReg (matchForm_formOneByte d w) b1 tail).1 h

theorem decode_formOne_of_long {d w : Bool} {b1 : Byte} {tail : List Byte}
    (h : lenRmReg (modField b1) (rmField b1) ≤ (formOneByte d w :: b1 :: tail).length) :
    ∃ disp, dispVal (formOneByte d w :: b1 :: tail) (dlen (modField b1) (rmField b1)) = some disp ∧
      decode (formOneByte d w :: b1 :: tail) = .ok (if d
        then .movRegRm w (modField b1) (regField b1) (rmField b1) disp
        else .movRmReg w (modField b1) (regField b1) (rmField b1) disp) := by
  obtain ⟨disp, hdisp, hdec⟩ := (decodeRmReg_cons (formOneByte d w) b1 tail).2 h
  rw [directionBit_formOneByte, wideBit_formOneByte] at hdec
  exact ⟨disp, hdisp, (decode_of_rmReg (matchForm_formOneByte d w) _).trans hdec⟩

/-! ## The lengths of form 1, mode by mode (R103) -/

section Lengths
variable {mod : BitVec 2} {rm : BitVec 3}

theorem lenRmReg_of_memory (hm : modeOf mod = .memory) (hr : rm ≠ 0b110#3) : lenRmReg mod rm = 2 := by
  simp [lenRmReg, dlen, hm, hr]

theorem lenRmReg_of_direct (hm : modeOf mod = .memory) (hr : rm = 0b110#3) : lenRmReg mod rm = 4 := by
  simp [lenRmReg, dlen, hm, hr]

theorem lenRmReg_of_displace8 (hm : modeOf mod = .displace8) : lenRmReg mod rm = 3 := by
  simp [lenRmReg, dlen, hm]

theorem lenRmReg_of_displace16 (hm : modeOf mod = .displace16) : lenRmReg mod rm = 4 := by
  simp [lenRmReg, dlen, hm]

theorem lenRmReg_of_registerDirect (hm : modeOf mod = .registerDirect) : lenRmReg mod rm = 2 := by
  simp [lenRmReg, dlen, hm]

end Lengths

/-- Settles O29: the record's length is `lenRmReg`, whatever d is, and its displacement what the reader gave. -/
theorem formOneDecodesRecord : Obligations.FormOneDecodesRecord := by
  intro d w b1 tail b0 b mod reg rm
  refine ⟨decode_formOneByte_alone d w, lenRmReg mod rm, fun hm => lenRmReg_of_memory (congrArg modeOf hm),
    fun hm => lenRmReg_of_direct (congrArg modeOf hm), fun hm => lenRmReg_of_displace8 (congrArg modeOf hm),
    fun hm => lenRmReg_of_displace16 (congrArg modeOf hm),
    fun hm => lenRmReg_of_registerDirect (congrArg modeOf hm), decode_formOne_of_short, fun h => ?_⟩
  obtain ⟨disp, hdisp, hdec⟩ := decode_formOne_of_long (d := d) (w := w) h
  have hsize : lenRmReg mod rm - 2 = dlen mod rm := Nat.add_sub_cancel_left 2 _
  refine ⟨_, disp, hdec, ?_, hsize ▸ dispAt_of_dispVal hdisp⟩
  cases d <;> rfl

/-! ## The rm operand in modes RegisterDirect and Memory (R71) -/

theorem rmOperand_of_registerDirect {mod : BitVec 2} {rm : BitVec 3} {w : Bool} {disp : Option Disp} {o : Operand}
    (hm : modeOf mod = .registerDirect) (h : rmOperand mod rm w disp = some o) : o = .reg (regName rm w) := by
  cases disp with
  | none => simpa [rmOperand, hm, eq_comm] using h
  | some f => simp [rmOperand, hm] at h

/-- The direct address is the 16-bit field of bytes 2 and 3. -/
theorem rmOperand_of_direct {b : List Byte} {mod : BitVec 2} {rm : BitVec 3} {disp : Option Disp} (w : Bool)
    (hm : modeOf mod = .memory) (hr : rm = 0b110#3) (h : dispVal b (dlen mod rm) = some disp) :
    ∃ lo hi, b[2]? = some lo ∧ b[3]? = some hi ∧
      rmOperand mod rm w disp = some (.direct (hi.toNat * 256 + lo.toNat)) := by
  have hdlen : dlen mod rm = 2 := by simp [dlen, hm, hr]
  obtain ⟨-, -, hhalf⟩ := dispAt_of_dispVal h
  obtain ⟨f, rfl, lo, hi, a, hlo, hhi, rfl, ha⟩ := hhalf hdlen
  exact ⟨lo, hi, hlo, hhi, by simp [rmOperand, hm, hr, ha]⟩

/-! ## The record of form 1 determines what was decoded -/

theorem decode_rmReg_record {b : List Byte} {i : Instr} {d w : Bool} {mod : BitVec 2} {reg rm : BitVec 3}
    {disp : Option Disp} {len : Nat} (hdec : decode b = .ok i) (hrec : i.record = .rmReg d w mod reg rm disp len) :
    dispVal b (dlen mod rm) = some disp ∧ len = lenRmReg mod rm := by
  have hfields := decode_fieldsReadFrom hdec
  cases i with
  | movRmReg => cases hrec; exact ⟨hfields, rfl⟩
  | movRegRm => cases hrec; exact ⟨hfields, rfl⟩
  | movRegImm => cases hrec
  | movRmImm => cases hrec
  | movAxMem => cases hrec
  | movMemAx => cases hrec

/-- Settles O30: the length function mode by mode, and the direct address of mode Memory. -/
theorem formOneLengthProperties : Obligations.FormOneLengthProperties := by
  intro b i d w mod reg rm disp len hdec hrec
  obtain ⟨hdisp, rfl⟩ := decode_rmReg_record hdec hrec
  exact ⟨lenRmReg_of_registerDirect, lenRmReg_of_displace8, lenRmReg_of_displace16,
    fun hm hr => ⟨lenRmReg_of_direct hm hr, rmOperand_of_direct w hm hr hdisp⟩, lenRmReg_of_memory⟩

/-! ## A zero displacement has no suffix (R184) -/

theorem signedDisp_zero_byte (signBy : DispSignBy) (w : Bool) : signedDisp signBy w (.byte 0#8) = 0 := by
  cases signBy <;> cases w <;> rfl

theorem signedDisp_zero_half (signBy : DispSignBy) (w : Bool) : signedDisp signBy w (.half 0#16) = 0 := by
  cases signBy <;> cases w <;> rfl

theorem operandText_mem_of_zero {signBy : DispSignBy} {w : Bool} {f : Disp} (base : Base)
    (h : signedDisp signBy w f = 0) :
    operandText signBy w (.mem base (some f)) = "[" ++ baseText base ++ "]" := by
  simp [operandText, suffixText, h]

/-! ## MOV r/m, reg (R101) -/

/-- Settles O31: the decode of form 1 at d = 0, whose destination is the rm operand the displacement fits. -/
theorem movRmRegResolvesOperands : Obligations.MovRmRegResolvesOperands := by
  refine ⟨fun w b1 tail => ?_, fun signBy w base => ⟨operandText_mem_of_zero base (signedDisp_zero_byte signBy w),
    operandText_mem_of_zero base (signedDisp_zero_half signBy w)⟩, by decide, by decide⟩
  rw [movRmReg_byte_eq_formOneByte]
  intro b0 b mod reg rm len
  refine ⟨decode_formOneByte_alone false w, decode_formOne_of_short, fun h => ?_⟩
  obtain ⟨disp, hdisp, hdec⟩ := decode_formOne_of_long (d := false) (w := w) h
  obtain ⟨dest, hdest⟩ := rmOperand_total w hdisp
  refine ⟨disp, dest, hdec, dispAt_of_dispVal hdisp, rfl, hdest, hdest, rfl, fun hm hr => ?_, fun hm hr => ?_⟩
  · rw [rmOperand_of_registerDirect (congrArg modeOf hm) hdest]
    exact congrArg (fun code => Operand.reg (regName code w)) hr
  · obtain ⟨lo, hi, hlo, hhi, hdirect⟩ := rmOperand_of_direct w (congrArg modeOf hm) hr hdisp
    exact ⟨lo, hi, hlo, hhi, Option.some.inj (hdest.symm.trans hdirect)⟩

end Sys2Proof
end

section
/-! PROOF. The text of operands and immediates: registers (O54, R181), memory operands (O55, R182, R184) and the
form-2 literal (O56, R185). -/

namespace Sys2Proof
open Machine

/-! ## Signed decimals (R184, R185) -/

theorem repr_natAbs_of_nonneg {k : Int} (h : 0 ≤ k) : Nat.repr k.natAbs = toString k := by
  obtain ⟨n, rfl⟩ := Int.eq_ofNat_of_zero_le h
  rfl

@[simp] theorem signedText_eq_toString (k : Int) : signedText k = toString k := by
  unfold signedText
  split
  · next hneg =>
    obtain ⟨n, rfl⟩ := Int.eq_negSucc_of_lt_zero hneg
    rfl
  · next hnonneg => exact repr_natAbs_of_nonneg (Int.not_lt.1 hnonneg)

/-- The magnitude of R184 is the decimal of `k` or of `-k`, whichever is positive. -/
theorem suffixText_eq_toString (k : Int) :
    suffixText k = if k = 0 then "" else if 0 < k then " + " ++ toString k else " - " ++ toString (-k) := by
  unfold suffixText
  split_ifs with hzero hpos
  · rfl
  · rw [repr_natAbs_of_nonneg hpos.le]
  · rw [← Int.natAbs_neg, repr_natAbs_of_nonneg (by omega)]

/-! ## Operands (R181, R182, R184, R185) -/

@[simp] theorem operandText_reg (signBy : DispSignBy) (w : Bool) (r : Reg) :
    operandText signBy w (.reg r) = regText r := rfl

@[simp] theorem operandText_base (signBy : DispSignBy) (w : Bool) (base : Base) :
    operandText signBy w (.mem base none) = "[" ++ baseText base ++ "]" := rfl

theorem operandText_baseDisp (signBy : DispSignBy) (w : Bool) (base : Base) (d : Disp) :
    operandText signBy w (.mem base (some d)) =
      "[" ++ baseText base ++ suffixText (signedDisp signBy w d) ++ "]" := rfl

@[simp] theorem operandText_imm (signBy : DispSignBy) (w : Bool) (imm : Imm) :
    operandText signBy w (.imm imm) = toString (twosComplement imm) := by
  rw [operandText, signedText_eq_toString, signedImm_eq_twosComplement]

/-- Settles O54: the table of R181. -/
theorem registerSpelling : Obligations.RegisterSpelling := rfl

/-- Settles O55: the suffix depends on the parameter only through the signed displacement. -/
theorem memoryOperandText : Obligations.MemoryOperandText := by
  refine ⟨operandText_base, rfl, fun signBy w base d => ?_⟩
  rw [operandText_baseDisp, suffixText_eq_toString]

/-! ## Lines (R180, R188) -/

theorem recordText_of_operands {I : Record} {dest src : Operand} (signBy : DispSignBy)
    (hdest : I.dest = some dest) (hsrc : I.src = some src) :
    recordText signBy I =
      some ("mov " ++ operandText signBy I.wide dest ++ ", " ++ sourceKeyword I ++
        operandText signBy I.wide src) := by
  rw [recordText, hdest, hsrc]

/-- Settles O56: both operands of form 2 are there for every immediate, and its keyword is empty. -/
theorem formTwoLiteralText : Obligations.FormTwoLiteralText := by
  intro signBy w reg imm
  have hkeyword : sourceKeyword (recordMovRegImm w reg imm) = "" := rfl
  rw [recordText_of_operands signBy (dest := .reg (regName reg w)) (src := .imm imm) rfl rfl, hkeyword,
    operandText_reg, operandText_imm, String.append_empty]

end Sys2Proof
end

section
/-! PROOF. A step in a running state runs the instruction its window decodes to (O5, R201). -/

namespace Sys2Proof.Machine

theorem step_of_decoded {s : State} {b : List Byte} {i : Instr} (hr : s.Running)
    (hw : windowAt s s.pos = .ok b) (hd : decode b = .ok i) : step s = exec i s := by
  rw [step_of_window hr hw, hd, act]

/-- Settles O5: the step acts on the decode, and the decode has checked the length, so the record is accepted. -/
theorem stepRunsDecodedInstruction : Obligations.StepRunsDecodedInstruction := by
  intro s b i hr hread hd
  have hw : windowAt s s.pos = .ok b := hread
  have hstep : step s = exec i s := step_of_decoded hr hw hd
  exact ⟨hstep, hstep.trans (exec_of_decoded hr hw hd)⟩

end Sys2Proof.Machine
end

section
/-! PROOF. Decode and encode are inverse to each other (O40, O41; R61 to R64, R78), so that form 3's middle bits
(O39, R63) and the bytes behind an instruction (O38, R256) have no effect. -/

namespace Sys2Proof

/-! ## A sized field and its bytes (R42) -/

/-- The field at window byte `k` is the one whose bytes stand there. -/
theorem sizedAt_eq_some_iff {b : List Byte} {k n : Nat} {f : Sized} :
    sizedAt b k n = some f ↔ f.size = n ∧ encodeSized f <+: b.drop k := by
  have hbyte : b[k]? = (b.drop k)[0]? := by simp
  have hnext : b[k + 1]? = (b.drop k)[1]? := by simp
  match n with
  | 0 => exact ⟨nofun, fun h => absurd h.1 (Nat.ne_of_gt (size_pos f))⟩
  | 1 =>
    rw [sizedAt, hbyte]
    cases f with
    | byte v => cases b.drop k <;> simp [Sized.size, encodeSized, @eq_comm _ v]
    | half h => cases b.drop k <;> simp [Sized.size]
  | 2 =>
    rw [sizedAt, hbyte, hnext]
    rcases b.drop k with _ | ⟨lo, _ | ⟨hi, rest⟩⟩
    · cases f <;> simp [Sized.size, encodeSized]
    · cases f <;> simp [Sized.size, encodeSized]
    · cases f with
      | byte v => simp [Sized.size]
      | half h =>
        simp only [List.getElem?_cons_zero, List.getElem?_cons_succ, Sized.size, encodeSized, Option.some.injEq,
          Sized.half.injEq, List.cons_prefix_cons, List.nil_prefix, and_true, true_and]
        exact ⟨fun h => h ▸ ⟨loByte_le16 lo hi, hiByte_le16 lo hi⟩,
          fun ⟨hlo, hhi⟩ => by rw [← hlo, ← hhi, le16_loByte_hiByte]⟩
  | n + 3 => exact ⟨nofun, fun h => by cases f <;> simp [Sized.size] at h⟩

theorem immVal_eq_some_iff {b : List Byte} {k : Nat} {w : Bool} {f : Sized} :
    immVal b k w = some f ↔ f.size = 1 + w.toNat ∧ encodeSized f <+: b.drop k := sizedAt_eq_some_iff

/-- The displacement is the one whose bytes stand at window byte 2. -/
theorem dispVal_eq_some_iff {b : List Byte} {dl : Nat} {disp : Option Disp} :
    dispVal b dl = some disp ↔ sizeOrZero disp = dl ∧ encodeDisp disp <+: b.drop 2 := by
  match dl, disp with
  | 0, none => simp [dispVal, sizeOrZero, encodeDisp]
  | 0, some f => simp [dispVal, sizeOrZero, Nat.ne_of_gt (size_pos f)]
  | dl + 1, none => simp [dispVal, sizeOrZero]
  | dl + 1, some f => simp [dispVal, sizeOrZero, encodeDisp, sizedAt_eq_some_iff]

/-- Behind the first two bytes, a field does not depend on them. -/
theorem sizedAt_cons_cons (b0 b1 : Byte) (tail : List Byte) (k n : Nat) :
    sizedAt (b0 :: b1 :: tail) (2 + k) n = sizedAt tail k n := by
  refine Option.ext fun f => ?_
  rw [sizedAt_eq_some_iff, sizedAt_eq_some_iff, Nat.add_comm 2 k, List.drop_succ_cons, List.drop_succ_cons]

/-! ## The first bytes of forms 2 to 4 (R61); form 1's is `formOneByte` -/

/-- `1011wreg`. -/
def formTwoByte (w : Bool) (reg : BitVec 3) : Byte := 0b1011#4 ++ BitVec.ofBool w ++ reg

/-- `1100011w`. -/
def formThreeByte (w : Bool) : Byte := 0b1100011#7 ++ BitVec.ofBool w

/-- `101000aw`. -/
def formFourByte (a w : Bool) : Byte := 0b101000#6 ++ BitVec.ofBool a ++ BitVec.ofBool w

@[simp] theorem matchForm_formTwoByte (w : Bool) (reg : BitVec 3) : matchForm (formTwoByte w reg) = some .immReg := by
  revert w reg; decide

@[simp] theorem wideBitImmReg_formTwoByte (w : Bool) (reg : BitVec 3) : wideBitImmReg (formTwoByte w reg) = w := by
  revert w reg; decide

@[simp] theorem regFieldImmReg_formTwoByte (w : Bool) (reg : BitVec 3) :
    regFieldImmReg (formTwoByte w reg) = reg := by
  revert w reg; decide

@[simp] theorem matchForm_formThreeByte (w : Bool) : matchForm (formThreeByte w) = some .immRm := by
  revert w; decide

@[simp] theorem wideBit_formThreeByte (w : Bool) : wideBit (formThreeByte w) = w := by
  revert w; decide

@[simp] theorem matchForm_formFourByte (a w : Bool) : matchForm (formFourByte a w) = some .accMem := by
  revert a w; decide

@[simp] theorem directionBit_formFourByte (a w : Bool) : directionBit (formFourByte a w) = a := by
  revert a w; decide

@[simp] theorem wideBit_formFourByte (a w : Bool) : wideBit (formFourByte a w) = w := by
  revert a w; decide

theorem formOneByte_fields {b0 : Byte} (h : matchForm b0 = some .rmReg) :
    b0 = formOneByte (directionBit b0) (wideBit b0) := by
  revert b0; decide

theorem formTwoByte_fields {b0 : Byte} (h : matchForm b0 = some .immReg) :
    b0 = formTwoByte (wideBitImmReg b0) (regFieldImmReg b0) := by
  revert b0; decide

theorem formThreeByte_fields {b0 : Byte} (h : matchForm b0 = some .immRm) : b0 = formThreeByte (wideBit b0) := by
  revert b0; decide

theorem formFourByte_fields {b0 : Byte} (h : matchForm b0 = some .accMem) :
    b0 = formFourByte (directionBit b0) (wideBit b0) := by
  revert b0; decide

theorem movRegRm_byte_eq_formOneByte (w : Bool) : (0b1000101#7 ++ BitVec.ofBool w : Byte) = formOneByte true w := by
  revert w; decide

theorem movAxMem_byte_eq_formFourByte (w : Bool) : (0b1010000#7 ++ BitVec.ofBool w : Byte) = formFourByte false w := by
  revert w; decide

theorem movMemAx_byte_eq_formFourByte (w : Bool) : (0b1010001#7 ++ BitVec.ofBool w : Byte) = formFourByte true w := by
  revert w; decide

/-! ## The encoder in terms of the first bytes -/

theorem encode_movRmReg (w : Bool) (mod : BitVec 2) (reg rm : BitVec 3) (disp : Option Disp) :
    encode (.movRmReg w mod reg rm disp) = formOneByte false w :: modRegRm mod reg rm :: encodeDisp disp := by
  rw [encode, movRmReg_byte_eq_formOneByte]

theorem encode_movRegRm (w : Bool) (mod : BitVec 2) (reg rm : BitVec 3) (disp : Option Disp) :
    encode (.movRegRm w mod reg rm disp) = formOneByte true w :: modRegRm mod reg rm :: encodeDisp disp := by
  rw [encode, movRegRm_byte_eq_formOneByte]

theorem encode_movRegImm (w : Bool) (reg : BitVec 3) (imm : Imm) :
    encode (.movRegImm w reg imm) = formTwoByte w reg :: encodeSized imm := rfl

theorem encode_movRmImm (w : Bool) (mod : BitVec 2) (rm : BitVec 3) (disp : Option Disp) (imm : Imm) :
    encode (.movRmImm w mod rm disp imm) =
      formThreeByte w :: modRegRm mod 0b000#3 rm :: (encodeDisp disp ++ encodeSized imm) := rfl

theorem encode_movAxMem (w : Bool) (addr : Addr) :
    encode (.movAxMem w addr) = formFourByte false w :: encodeSized addr := by
  rw [encode, movAxMem_byte_eq_formFourByte]

theorem encode_movMemAx (w : Bool) (addr : Addr) :
    encode (.movMemAx w addr) = formFourByte true w :: encodeSized addr := by
  rw [encode, movMemAx_byte_eq_formFourByte]

theorem length_statement (i : Instr) : Laws.Length.Statement i := by
  cases i with
  | movRmReg => exact Laws.Length.movRmReg _ _ _ _ _
  | movRegRm => exact Laws.Length.movRegRm _ _ _ _ _
  | movRegImm => exact Laws.Length.movRegImm _ _ _
  | movRmImm => exact Laws.Length.movRmImm _ _ _ _ _
  | movAxMem => exact Laws.Length.movAxMem _ _
  | movMemAx => exact Laws.Length.movMemAx _ _

/-- An encoding has the instruction's length (R76). -/
theorem encode_length {i : Instr} (h : i.wellFormed = true) : (encode i).length = i.len :=
  (length_statement i h).1

/-- Every instruction has two to six bytes (R60). -/
theorem len_bounds {i : Instr} (h : i.wellFormed = true) : 2 ≤ i.len ∧ i.len ≤ 6 :=
  (length_statement i h).2

/-! ## The decode of forms 2 to 4 (R120, R140, R160); form 1's is `decode_formOne_of_long` -/

theorem decode_formTwo_of_long {w : Bool} {reg : BitVec 3} {tail : List Byte}
    (h : lenImmReg w ≤ (formTwoByte w reg :: tail).length) :
    ∃ imm, immVal (formTwoByte w reg :: tail) 1 w = some imm ∧
      decode (formTwoByte w reg :: tail) = .ok (.movRegImm w reg imm) := by
  have hlong := (decodeImmReg_cons (formTwoByte w reg) tail).2
  rw [wideBitImmReg_formTwoByte, regFieldImmReg_formTwoByte,
    ← decode_of_immReg (matchForm_formTwoByte w reg)] at hlong
  exact hlong h

theorem decode_formThree_of_long {w : Bool} {b1 : Byte} {tail : List Byte}
    (h : lenImmRm w (modField b1) (rmField b1) ≤ (formThreeByte w :: b1 :: tail).length) :
    ∃ disp imm, dispVal (formThreeByte w :: b1 :: tail) (dlen (modField b1) (rmField b1)) = some disp ∧
      immVal (formThreeByte w :: b1 :: tail) (2 + dlen (modField b1) (rmField b1)) w = some imm ∧
      decode (formThreeByte w :: b1 :: tail) = .ok (.movRmImm w (modField b1) (rmField b1) disp imm) := by
  have hlong := (decodeImmRm_cons (formThreeByte w) b1 tail).2
  rw [wideBit_formThreeByte, ← decode_of_immRm (matchForm_formThreeByte w)] at hlong
  exact hlong h

theorem decode_formFour_of_long {a w : Bool} {tail : List Byte}
    (h : lenAccMem w ≤ (formFourByte a w :: tail).length) :
    ∃ addr, immVal (formFourByte a w :: tail) 1 w = some addr ∧
      decode (formFourByte a w :: tail) = .ok (if a then .movMemAx w addr else .movAxMem w addr) := by
  have hlong := (decodeAccMem_cons (formFourByte a w) tail).2
  rw [wideBit_formFourByte, directionBit_formFourByte, ← decode_of_accMem (matchForm_formFourByte a w)] at hlong
  exact hlong h

/-! ## Decoding an encoding -/

theorem dispVal_of_encodeDisp {mod : BitVec 2} {rm : BitVec 3} {disp : Option Disp}
    (h : dispFits mod rm disp = true) (b0 b1 : Byte) (rest : List Byte) :
    dispVal (b0 :: b1 :: (encodeDisp disp ++ rest)) (dlen mod rm) = some disp :=
  dispVal_eq_some_iff.2 ⟨dispFits_iff.1 h, List.prefix_append _ _⟩

theorem immVal_of_encodeSized {w : Bool} {f : Sized} (h : widthFits w f = true) (b0 : Byte) (rest : List Byte) :
    immVal (b0 :: (encodeSized f ++ rest)) 1 w = some f :=
  immVal_eq_some_iff.2 ⟨widthFits_iff.1 h, List.prefix_append _ _⟩

/-- Both rows of form 1; `d` chooses between them. -/
theorem decode_formOne_encoding (d w : Bool) {mod : BitVec 2} (reg : BitVec 3) {rm : BitVec 3}
    {disp : Option Disp} (hfits : dispFits mod rm disp = true) (extra : List Byte) :
    decode (formOneByte d w :: modRegRm mod reg rm :: (encodeDisp disp ++ extra)) =
      .ok (if d then .movRegRm w mod reg rm disp else .movRmReg w mod reg rm disp) := by
  have hlen : lenRmReg (modField (modRegRm mod reg rm)) (rmField (modRegRm mod reg rm)) ≤
      (formOneByte d w :: modRegRm mod reg rm :: (encodeDisp disp ++ extra)).length := by
    simp [lenRmReg, dispFits_iff.1 hfits]; omega
  obtain ⟨disp', hdisp, hdec⟩ := decode_formOne_of_long hlen
  rw [modField_modRegRm, rmField_modRegRm, dispVal_of_encodeDisp hfits] at hdisp
  cases hdisp
  rw [hdec, modField_modRegRm, regField_modRegRm, rmField_modRegRm]

/-- Both rows of form 4; `a` chooses between them. -/
theorem decode_formFour_encoding (a : Bool) {w : Bool} {addr : Addr} (hfits : widthFits w addr = true)
    (extra : List Byte) :
    decode (formFourByte a w :: (encodeSized addr ++ extra)) =
      .ok (if a then .movMemAx w addr else .movAxMem w addr) := by
  have hlen : lenAccMem w ≤ (formFourByte a w :: (encodeSized addr ++ extra)).length := by
    simp [lenAccMem, widthFits_iff.1 hfits]; omega
  obtain ⟨addr', haddr, hdec⟩ := decode_formFour_of_long hlen
  rw [immVal_of_encodeSized hfits] at haddr
  cases haddr
  exact hdec

theorem decode_formTwo_encoding {w : Bool} (reg : BitVec 3) {imm : Imm} (hfits : widthFits w imm = true)
    (extra : List Byte) :
    decode (formTwoByte w reg :: (encodeSized imm ++ extra)) = .ok (.movRegImm w reg imm) := by
  have hlen : lenImmReg w ≤ (formTwoByte w reg :: (encodeSized imm ++ extra)).length := by
    simp [lenImmReg, widthFits_iff.1 hfits]; omega
  obtain ⟨imm', himm, hdec⟩ := decode_formTwo_of_long hlen
  rw [immVal_of_encodeSized hfits] at himm
  cases himm
  exact hdec

/-- The reg field is any: form 3 does not read it (D8). -/
theorem decode_formThree_encoding {w : Bool} {mod : BitVec 2} (reg : BitVec 3) {rm : BitVec 3}
    {disp : Option Disp} {imm : Imm} (hdisp : dispFits mod rm disp = true) (himm : widthFits w imm = true)
    (extra : List Byte) :
    decode (formThreeByte w :: modRegRm mod reg rm :: (encodeDisp disp ++ (encodeSized imm ++ extra))) =
      .ok (.movRmImm w mod rm disp imm) := by
  have hlen : lenImmRm w (modField (modRegRm mod reg rm)) (rmField (modRegRm mod reg rm)) ≤
      (formThreeByte w :: modRegRm mod reg rm :: (encodeDisp disp ++ (encodeSized imm ++ extra))).length := by
    simp [lenImmRm, dispFits_iff.1 hdisp, widthFits_iff.1 himm]; omega
  have himmRead : immVal (formThreeByte w :: modRegRm mod reg rm :: (encodeDisp disp ++ (encodeSized imm ++ extra)))
      (2 + dlen mod rm) w = some imm := by
    refine immVal_eq_some_iff.2 ⟨widthFits_iff.1 himm, ?_⟩
    rw [Nat.add_comm, List.drop_succ_cons, List.drop_succ_cons, ← dispFits_iff.1 hdisp, ← encodeDisp_length,
      List.drop_left]
    exact List.prefix_append _ _
  obtain ⟨disp', imm', hdisp', himm', hdec⟩ := decode_formThree_of_long hlen
  rw [modField_modRegRm, rmField_modRegRm] at hdisp' himm' hdec
  rw [dispVal_of_encodeDisp hdisp] at hdisp'
  rw [himmRead] at himm'
  cases hdisp'
  cases himm'
  exact hdec

/-- Settles O40: form by form, the fields the encoder laid out are the ones the readers give. -/
theorem decodeInvertsEncode : Obligations.DecodeInvertsEncode := by
  intro i extra hwf
  cases i with
  | movRmReg w mod reg rm disp =>
    rw [encode_movRmReg]; exact decode_formOne_encoding false w reg hwf extra
  | movRegRm w mod reg rm disp =>
    rw [encode_movRegRm]; exact decode_formOne_encoding true w reg hwf extra
  | movRegImm w reg imm => exact decode_formTwo_encoding reg hwf extra
  | movRmImm w mod rm disp imm =>
    obtain ⟨hdisp, himm⟩ := Bool.and_eq_true_iff.1 hwf
    rw [encode_movRmImm, List.cons_append, List.cons_append, List.append_assoc]
    exact decode_formThree_encoding 0b000#3 hdisp himm extra
  | movAxMem w addr =>
    rw [encode_movAxMem]; exact decode_formFour_encoding false hwf extra
  | movMemAx w addr =>
    rw [encode_movMemAx]; exact decode_formFour_encoding true hwf extra

/-! ## Encoding what was decoded -/

/-- The mask C7 clears the middle bits of the mod/reg/rm byte. -/
theorem and_C7_eq_modRegRm (b1 : Byte) : b1 &&& 0xC7#8 = modRegRm (modField b1) 0b000#3 (rmField b1) := by
  revert b1; decide

theorem take_of_dispVal {b0 b1 : Byte} {tail : List Byte} {dl : Nat} {disp : Option Disp}
    (h : dispVal (b0 :: b1 :: tail) dl = some disp) : tail.take dl = encodeDisp disp := by
  obtain ⟨hsize, hprefix⟩ := dispVal_eq_some_iff.1 h
  rw [← hsize, ← encodeDisp_length]
  exact (List.prefix_iff_eq_take.1 hprefix).symm

theorem take_of_immVal {b : List Byte} {k : Nat} {w : Bool} {f : Sized} (h : immVal b k w = some f) :
    (b.drop k).take (1 + w.toNat) = encodeSized f := by
  obtain ⟨hsize, hprefix⟩ := immVal_eq_some_iff.1 h
  rw [← hsize, ← encodeSized_length]
  exact (List.prefix_iff_eq_take.1 hprefix).symm

theorem dispFits_of_dispVal {b : List Byte} {mod : BitVec 2} {rm : BitVec 3} {disp : Option Disp}
    (h : dispVal b (dlen mod rm) = some disp) : dispFits mod rm disp = true :=
  dispFits_iff.2 (dispVal_eq_some_iff.1 h).1

theorem widthFits_of_immVal {b : List Byte} {k : Nat} {w : Bool} {f : Sized} (h : immVal b k w = some f) :
    widthFits w f = true :=
  widthFits_iff.2 (immVal_eq_some_iff.1 h).1

theorem take_add_two_cons_cons (b0 b1 : Byte) (tail : List Byte) (n : Nat) :
    (b0 :: b1 :: tail).take (2 + n) = b0 :: b1 :: tail.take n := by
  rw [Nat.add_comm, List.take_succ_cons, List.take_succ_cons]

/-- An immediate or address behind the first byte: the bytes of forms 2 and 4. -/
theorem take_of_immVal_cons {b0 : Byte} {tail : List Byte} {w : Bool} {f : Sized}
    (h : immVal (b0 :: tail) 1 w = some f) : (b0 :: tail).take (2 + w.toNat) = b0 :: encodeSized f := by
  have hlen : 2 + w.toNat = (1 + w.toNat) + 1 := by omega
  rw [hlen, List.take_succ_cons]
  exact congrArg (b0 :: ·) (take_of_immVal h)

/-- The displacement and the immediate behind it: the bytes of form 3 after the second. -/
theorem take_of_dispVal_immVal {b0 b1 : Byte} {tail : List Byte} {dl : Nat} {w : Bool} {disp : Option Disp}
    {imm : Imm} (hdisp : dispVal (b0 :: b1 :: tail) dl = some disp)
    (himm : immVal (b0 :: b1 :: tail) (2 + dl) w = some imm) :
    tail.take (dl + (1 + w.toNat)) = encodeDisp disp ++ encodeSized imm := by
  have himm := take_of_immVal himm
  rw [Nat.add_comm 2 dl, List.drop_succ_cons, List.drop_succ_cons] at himm
  rw [List.take_add, take_of_dispVal hdisp, himm]

theorem decode_wellFormed {b : List Byte} {i : Instr} (h : decode b = .ok i) : i.wellFormed = true := by
  have hfields := decode_fieldsReadFrom h
  cases i with
  | movRmReg | movRegRm => exact dispFits_of_dispVal hfields
  | movRegImm | movAxMem | movMemAx => exact widthFits_of_immVal hfields
  | movRmImm =>
    obtain ⟨hdisp, himm⟩ := hfields
    exact Bool.and_eq_true_iff.2 ⟨dispFits_of_dispVal hdisp, widthFits_of_immVal himm⟩

/-- Settles O41: the bytes the readers took the fields from are the ones the encoder lays out. -/
theorem decodedBytesAreTheEncoding : Obligations.DecodedBytesAreTheEncoding := by
  intro b i h
  refine ⟨decode_wellFormed h, decode_len h, ?_⟩
  rcases decode_ok_cases h with ⟨b0, b1, tail, disp, rfl, hm, -, hdisp, rfl⟩ | ⟨b0, tail, imm, rfl, hm, -, himm, rfl⟩ |
    ⟨b0, b1, tail, disp, imm, rfl, hm, -, hdisp, himm, rfl⟩ | ⟨b0, tail, addr, rfl, hm, -, haddr, rfl⟩
  · have hbytes := take_add_two_cons_cons b0 b1 tail (dlen (modField b1) (rmField b1))
    rw [take_of_dispVal hdisp] at hbytes
    have hb0 := formOneByte_fields hm
    split
    · next hd =>
      rw [hd] at hb0
      refine ⟨fun _ => ?_, nofun⟩
      rw [encode_movRegRm, ← hb0, modRegRm_fields]
      exact hbytes
    · next hd =>
      rw [Bool.eq_false_iff.2 hd] at hb0
      refine ⟨fun _ => ?_, nofun⟩
      rw [encode_movRmReg, ← hb0, modRegRm_fields]
      exact hbytes
  · refine ⟨fun _ => ?_, nofun⟩
    rw [encode_movRegImm, ← formTwoByte_fields hm]
    exact take_of_immVal_cons himm
  · refine ⟨fun hne => absurd rfl hne, fun _ => ?_⟩
    have hbytes := take_add_two_cons_cons b0 b1 tail (dlen (modField b1) (rmField b1) + (1 + (wideBit b0).toNat))
    rw [take_of_dispVal_immVal hdisp himm, ← Nat.add_assoc] at hbytes
    rw [encode_movRmImm, ← formThreeByte_fields hm, ← and_C7_eq_modRegRm, Instr.len, lenImmRm, hbytes]
    rfl
  · have hbytes := take_of_immVal_cons haddr
    have hb0 := formFourByte_fields hm
    split
    · next ha =>
      rw [ha] at hb0
      refine ⟨fun _ => ?_, nofun⟩
      rw [encode_movMemAx, ← hb0]
      exact hbytes
    · next ha =>
      rw [Bool.eq_false_iff.2 ha] at hb0
      refine ⟨fun _ => ?_, nofun⟩
      rw [encode_movAxMem, ← hb0]
      exact hbytes

/-! ## Bits and bytes without effect (D8, D15) -/

/-- The decode of form 3 reads mod and rm of the second byte and nothing else of it. -/
theorem decode_formThree_congr {b0 b1 b1' : Byte} (hm : matchForm b0 = some .immRm)
    (hmod : modField b1 = modField b1') (hrm : rmField b1 = rmField b1') (tail : List Byte) :
    decode (b0 :: b1 :: tail) = decode (b0 :: b1' :: tail) := by
  have hdisp (dl : Nat) : dispVal (b0 :: b1 :: tail) dl = dispVal (b0 :: b1' :: tail) dl :=
    Option.ext fun _ => by rw [dispVal_eq_some_iff, dispVal_eq_some_iff]; rfl
  have himm (dl : Nat) (w : Bool) :
      immVal (b0 :: b1 :: tail) (2 + dl) w = immVal (b0 :: b1' :: tail) (2 + dl) w := by
    rw [immVal, immVal, sizedAt_cons_cons, sizedAt_cons_cons]
  rw [decode_of_immRm hm, decode_of_immRm hm, decodeImmRm, decodeImmRm, withSecondByte_of_cons,
    withSecondByte_of_cons, hmod, hrm, hdisp]
  simp only [himm, checkLength, List.length_cons]

/-- Settles O39: mod and rm are the same in both second bytes. -/
theorem formThreeIgnoresMiddleBits : Obligations.FormThreeIgnoresMiddleBits := fun w mod x y rm tail =>
  decode_formThree_congr (matchForm_formThreeByte w)
    ((modField_modRegRm mod x rm).trans (modField_modRegRm mod y rm).symm)
    ((rmField_modRegRm mod x rm).trans (rmField_modRegRm mod y rm).symm) tail

theorem decode_clear_middle_bits {b0 : Byte} (hm : matchForm b0 = some .immRm) (b1 : Byte) (tail : List Byte) :
    decode (b0 :: (b1 &&& 0xC7#8) :: tail) = decode (b0 :: b1 :: tail) := by
  rw [and_C7_eq_modRegRm]
  exact decode_formThree_congr hm (modField_modRegRm _ _ _) (rmField_modRegRm _ _ _) tail

theorem eq_cons_cons_of_modify_one {f : Byte → Byte} {l tail : List Byte} {b0 b1 : Byte}
    (h : l.modify 1 f = b0 :: b1 :: tail) : ∃ c, l = b0 :: c :: tail ∧ f c = b1 := by
  match l with
  | [] => cases h
  | [_] => cases h
  | c0 :: c :: cs =>
    rw [List.modify_succ_cons, List.modify_zero_cons] at h
    injection h with hhead htail
    injection htail with hsecond hrest
    exact ⟨c, by rw [hhead, hrest], hsecond⟩

/-- Settles O38: the decode of an encoding ignores what follows (O40), and a decoded instruction's bytes are its
encoding (O41), but for bits that have no effect. -/
theorem bytesBeyondInstructionHaveNoEffect : Obligations.BytesBeyondInstructionHaveNoEffect := by
  intro b extra i h
  obtain ⟨hwf, -, hbytes, hcleared⟩ := decodedBytesAreTheEncoding b i h
  have hdec := decodeInvertsEncode i extra hwf
  cases i with
  | movRmReg | movRegRm | movRegImm | movAxMem | movMemAx =>
    rw [hbytes nofun]; exact hdec
  | movRmImm w mod rm disp imm =>
    have hcleared := hcleared rfl
    rw [encode_movRmImm] at hcleared hdec
    obtain ⟨c1, htake, hc1⟩ := eq_cons_cons_of_modify_one hcleared
    rw [htake, List.cons_append, List.cons_append,
      ← decode_clear_middle_bits (matchForm_formThreeByte w) c1, hc1]
    exact hdec

end Sys2Proof
end

section
/-! PROOF. What a decode can answer (O37, R223, R224): the error of an unmatched first byte, an instruction, or a
truncation. -/

namespace Sys2Proof

/-- A matched first byte decodes to an instruction of its form, or the window is too short for it. -/
theorem decode_of_matched {b0 : Byte} {form : Form} (hm : matchForm b0 = some form) (tail : List Byte) :
    (∃ i, decode (b0 :: tail) = .ok i ∧ i.form = form) ∨
      ∃ need, decode (b0 :: tail) = .err (.truncatedInput need (b0 :: tail).length) ∧
        (b0 :: tail).length < need ∧ ((form = .rmReg ∨ form = .immRm) → tail = [] → need = 2) := by
  have hcases {len : Nat} (h : DecodesExactlyAt (b0 :: tail) form len) :
      (∃ i, decode (b0 :: tail) = .ok i ∧ i.form = form) ∨
        (decode (b0 :: tail) = .err (.truncatedInput len (b0 :: tail).length) ∧ (b0 :: tail).length < len) := by
    rcases Nat.lt_or_ge (b0 :: tail).length len with hshort | hlong
    · exact .inr ⟨h.1 hshort, hshort⟩
    · obtain ⟨i, hdec, hform, -⟩ := h.2 hlong
      exact .inl ⟨i, hdec, hform⟩
  have hone : [b0].length < 2 := Nat.lt_succ_self 1
  cases form with
  | rmReg =>
    cases tail with
    | nil => exact .inr ⟨2, decode_rmReg_without_second_byte hm hone, hone, fun _ _ => rfl⟩
    | cons b1 tail =>
      exact (hcases (decodesExactlyAt_rmReg hm b1 tail)).imp_right fun ⟨hdec, hlt⟩ => ⟨_, hdec, hlt, nofun⟩
  | immReg =>
    exact (hcases (decodesExactlyAt_immReg hm tail)).imp_right fun ⟨hdec, hlt⟩ => ⟨_, hdec, hlt, nofun⟩
  | immRm =>
    cases tail with
    | nil => exact .inr ⟨2, decode_immRm_without_second_byte hm hone, hone, fun _ _ => rfl⟩
    | cons b1 tail =>
      exact (hcases (decodesExactlyAt_immRm hm b1 tail)).imp_right fun ⟨hdec, hlt⟩ => ⟨_, hdec, hlt, nofun⟩
  | accMem =>
    exact (hcases (decodesExactlyAt_accMem hm tail)).imp_right fun ⟨hdec, hlt⟩ => ⟨_, hdec, hlt, nofun⟩

/-- A window of one byte or more is never read out of range (R46). -/
theorem decode_ne_refusedRead {b : List Byte} (h : b ≠ []) : decode b ≠ .refusedRead := by
  obtain ⟨b0, tail, rfl⟩ := List.exists_cons_of_ne_nil h
  cases hm : matchForm b0 with
  | none => rw [decode_of_unmatched hm]; exact nofun
  | some form =>
    obtain ⟨i, hdec, -⟩ | ⟨need, hdec, -, -⟩ := decode_of_matched hm tail
    · rw [hdec]; exact nofun
    · rw [hdec]; exact nofun

/-- Settles O37: the matcher comes first, and a matched first byte leaves an instruction or a truncation. -/
theorem decodeErrorPriority : Obligations.DecodeErrorPriority := by
  intro b0 tail r
  cases hm : matchForm b0 with
  | none =>
    have hr : r = .err (.unsupportedOpcode b0) := decode_of_unmatched hm tail
    rw [hr]
    refine ⟨iff_of_true rfl rfl, .inr (.inr rfl), nofun, nofun, fun raw hraw => ?_⟩
    cases hraw
    exact ⟨rfl, rfl, rfl⟩
  | some form =>
    obtain ⟨i, hdec, -⟩ | ⟨need, hdec, hlt, htwo⟩ := decode_of_matched hm tail
    · have hr : r = .ok i := hdec
      rw [hr]
      exact ⟨iff_of_false nofun nofun, .inl rfl, fun _ _ => rfl, nofun, nofun⟩
    · have hr : r = .err (.truncatedInput need (b0 :: tail).length) := hdec
      rw [hr]
      refine ⟨iff_of_false nofun nofun, .inr (.inl rfl), nofun, fun need' avail h => ?_, nofun⟩
      cases h
      exact ⟨rfl, rfl, rfl, hlt, fun hform => htwo (hform.imp Option.some.inj Option.some.inj)⟩

end Sys2Proof
end

section
/-! PROOF. Each remaining instruction's decoding, record and operands: MOV reg, r/m (O32, R102), MOV reg, imm (O33,
R120), MOV r/m, imm (O34, R140), MOV AX, [addr] (O35, R161) and MOV [addr], AX (O36, R162). -/

namespace Sys2Proof
open Machine

/-! ## Windows shorter than their instruction (R76) -/

theorem decode_formTwo_of_short {w : Bool} {reg : BitVec 3} {tail : List Byte}
    (h : (formTwoByte w reg :: tail).length < lenImmReg w) :
    decode (formTwoByte w reg :: tail) =
      .err (.truncatedInput (lenImmReg w) (formTwoByte w reg :: tail).length) := by
  have hexact := decodesExactlyAt_immReg (matchForm_formTwoByte w reg) tail
  rw [wideBitImmReg_formTwoByte] at hexact
  exact hexact.1 h

theorem decode_formThree_of_short {w : Bool} {b1 : Byte} {tail : List Byte}
    (h : (formThreeByte w :: b1 :: tail).length < lenImmRm w (modField b1) (rmField b1)) :
    decode (formThreeByte w :: b1 :: tail) =
      .err (.truncatedInput (lenImmRm w (modField b1) (rmField b1)) (formThreeByte w :: b1 :: tail).length) := by
  have hexact := decodesExactlyAt_immRm (matchForm_formThreeByte w) b1 tail
  rw [wideBit_formThreeByte] at hexact
  exact hexact.1 h

theorem decode_formFour_of_short {a w : Bool} {tail : List Byte}
    (h : (formFourByte a w :: tail).length < lenAccMem w) :
    decode (formFourByte a w :: tail) =
      .err (.truncatedInput (lenAccMem w) (formFourByte a w :: tail).length) := by
  have hexact := decodesExactlyAt_accMem (matchForm_formFourByte a w) tail
  rw [wideBit_formFourByte] at hexact
  exact hexact.1 h

/-- The narrow codes 100 to 111 name the high bytes (R69). -/
theorem regName_narrow_high (reg : BitVec 3) (h : 4 ≤ reg.toNat) : regName reg false ∈ [.ah, .ch, .dh, .bh] := by
  revert reg; decide

/-! ## Form 1 with d = 1 -/

/-- Settles O32: the decode of form 1 at d = 1, whose source is the rm operand the displacement fits. -/
theorem movRegRmResolvesOperands : Obligations.MovRegRmResolvesOperands := by
  refine ⟨fun w b1 tail => ?_, regName_narrow_high, by decide, by decide⟩
  rw [movRegRm_byte_eq_formOneByte]
  intro b0 b mod reg rm len
  refine ⟨decode_formOneByte_alone true w, decode_formOne_of_short, fun h => ?_⟩
  obtain ⟨disp, hdisp, hdec⟩ := decode_formOne_of_long (d := true) (w := w) h
  obtain ⟨src, hsrc⟩ := rmOperand_total w hdisp
  refine ⟨disp, src, hdec, dispAt_of_dispVal hdisp, rfl, hsrc, rfl, hsrc, fun hm hr => ?_, fun hm hr => ?_⟩
  · rw [rmOperand_of_registerDirect (congrArg modeOf hm) hsrc]
    exact congrArg (fun code => Operand.reg (regName code w)) hr
  · obtain ⟨lo, hi, hlo, hhi, hdirect⟩ := rmOperand_of_direct w (congrArg modeOf hm) hr hdisp
    exact ⟨lo, hi, hlo, hhi, Option.some.inj (hsrc.symm.trans hdirect)⟩

/-! ## Form 2 -/

/-- Settles O33: the decode of form 2, whose immediate stands behind the first byte. -/
theorem movRegImmDecodesRecord : Obligations.MovRegImmDecodesRecord := by
  refine ⟨fun w reg tail => ⟨decode_formTwo_of_short, fun h => ?_⟩, by decide, by decide, by decide,
    regName_narrow_high, by decide, by decide, by decide⟩
  obtain ⟨imm, himm, hdec⟩ := decode_formTwo_of_long h
  exact ⟨imm, hdec, fieldAt_of_immVal himm, rfl, rfl, rfl, congrArg some (signedImm_eq_twosComplement imm)⟩

/-! ## Form 3 -/

/-- Settles O34: the decode of form 3, whose destination is the rm operand the displacement fits. -/
theorem movRmImmDecodesRecord : Obligations.MovRmImmDecodesRecord := by
  refine ⟨fun w b1 tail => ?_, by decide, by decide⟩
  intro b0 b mod rm len
  have hlen : len = lenImmRm w mod rm := Nat.add_assoc _ _ _
  refine ⟨decode_immRm_without_second_byte (matchForm_formThreeByte w) (tail := []) (Nat.lt_succ_self 1), ?_, ?_⟩
  · rw [hlen]; exact decode_formThree_of_short
  · rw [hlen]
    intro h
    obtain ⟨disp, imm, hdisp, himm, hdec⟩ := decode_formThree_of_long h
    obtain ⟨dest, hdest⟩ := rmOperand_total w hdisp
    exact ⟨disp, imm, dest, hdec, dispAt_of_dispVal hdisp, fieldAt_of_immVal himm, rfl, hdest, hdest, rfl,
      fun hm => rmOperand_of_registerDirect (congrArg modeOf hm) hdest⟩

/-! ## Form 4 -/

/-- Settles O35: the decode of form 4 at a = 0, whose address stands behind the first byte. -/
theorem movAxMemDecodesRecord : Obligations.MovAxMemDecodesRecord := by
  refine ⟨fun w tail => ?_, by decide, by decide, by decide⟩
  rw [movAxMem_byte_eq_formFourByte]
  refine ⟨decode_formFour_of_short, fun h => ?_⟩
  obtain ⟨addr, haddr, hdec⟩ := decode_formFour_of_long (a := false) h
  exact ⟨addr, hdec, fieldAt_of_immVal haddr, rfl, rfl, rfl⟩

/-- Settles O36: the decode of form 4 at a = 1, whose address stands behind the first byte. -/
theorem movMemAxDecodesRecord : Obligations.MovMemAxDecodesRecord := by
  refine ⟨fun w tail => ?_, by decide, by decide, by decide⟩
  rw [movMemAx_byte_eq_formFourByte]
  refine ⟨decode_formFour_of_short, fun h => ?_⟩
  obtain ⟨addr, haddr, hdec⟩ := decode_formFour_of_long (a := true) h
  exact ⟨addr, hdec, fieldAt_of_immVal haddr, rfl, rfl, rfl⟩

end Sys2Proof
end

section
/-! PROOF. Byte order (O16, R42), the Register Namer's table (O21, R69), the resolver's table (O23, R71), the worked
examples (O42), the signed displacement (O24, R74) and the derived outputs of a record (O60, R24). -/

namespace Sys2Proof
open Machine

/-! ## Byte order (R42) -/

theorem encodeSized_half_le16 (lo hi : Byte) : encodeSized (.half (le16 lo hi)) = [lo, hi] := by
  rw [encodeSized, loByte_le16, hiByte_le16]

theorem streamBit_of_one_byte (v : Byte) (i : Nat) (h : i < 8) : streamBit [v] i = some (v.getLsbD (7 - i)) := by
  simpa using streamBit_in_byte (b := [v]) (k := 0) (v := v) rfl h

/-- Settles O16: bits by the Bit Cursor, halves by `le16`, bytes by the reads of the buffer. -/
theorem byteOrderIsLowByteFirst : Obligations.ByteOrderIsLowByteFirst := by
  refine ⟨streamBit_of_one_byte, fun lo hi => ⟨le16_toNat lo hi, encodeSized_half_le16 lo hi⟩,
    fun s a k b h => ?_, .half 0x0001#16, by decide, rfl⟩
  obtain ⟨hlen, hbytes⟩ := memRead_eq_ok h
  exact ⟨hlen, fun j hj => (hbytes j hj).2⟩

/-! ## Tables and worked examples (R69, R71) -/

/-- Settles O21: the table of R69. -/
theorem registerNamerTable : Obligations.RegisterNamerTable := ⟨rfl, rfl⟩

theorem rmOperand_base (rm : BitVec 3) (w : Bool) (h : rm ≠ 0b110#3) :
    rmOperand 0b00#2 rm w none = some (.mem (baseOf rm) none) := by
  simp [rmOperand, h]

/-- Settles O23: one row of the resolver per mode, two in mode Memory. -/
theorem rmOperandTable : Obligations.RmOperandTable :=
  ⟨fun _ _ => rfl, fun _ _ => rfl, rmOperand_base, fun _ _ _ => rfl, fun _ _ _ => rfl, rfl⟩

/-- Settles O42: the decode of seven fixed words. -/
theorem workedExampleWordsDecode : Obligations.WorkedExampleWordsDecode := by
  unfold Obligations.WorkedExampleWordsDecode; decide

/-! ## The signed displacement (R74) -/

theorem signedDisp_field (w : Bool) (d : Disp) : signedDisp .field w d = twosComplement d :=
  signedImm_eq_twosComplement d

theorem signedDisp_w_wide (d : Disp) :
    signedDisp .w true d = twosComplement (.half (BitVec.ofNat 16 d.raw)) :=
  signedImm_eq_twosComplement (.half (BitVec.ofNat 16 d.raw))

theorem signedDisp_w_narrow (d : Disp) :
    signedDisp .w false d = twosComplement (.byte (BitVec.ofNat 8 (d.raw % 256))) := by
  have hreduced : BitVec.ofNat 8 (d.raw % 256) = BitVec.ofNat 8 d.raw :=
    BitVec.eq_of_toNat_eq (by simp)
  rw [hreduced]
  exact signedImm_eq_twosComplement (.byte (BitVec.ofNat 8 d.raw))

/-- A field of the w bit's width is its own reduction to that width. -/
theorem signedDisp_field_eq_w {w : Bool} {d : Disp} (h : d.size = 1 + w.toNat) :
    signedDisp .field w d = signedDisp .w w d := by
  cases w with
  | false =>
    cases d with
    | byte v => simp [signedDisp, Sized.signed, Sized.raw]
    | half v => simp [Sized.size] at h
  | true =>
    cases d with
    | byte v => simp [Sized.size] at h
    | half v => simp [signedDisp, Sized.signed, Sized.raw]

/-- One byte read as 16 bits is below 256. -/
theorem signedDisp_w_wide_byte_nonneg (v : Byte) : 0 ≤ signedDisp .w true (.byte v) := by
  have hv := v.isLt
  rw [signedDisp_w_wide, twosComplement, if_pos]
  · exact Int.natCast_nonneg _
  · rw [Sized.raw, BitVec.toNat_ofNat]; omega

theorem signedDispOf_of_displacing {mod : BitVec 2} (h : modeOf mod = .displace8 ∨ modeOf mod = .displace16)
    (signBy : DispSignBy) (w : Bool) (f : Disp) :
    signedDispOf signBy w mod (some f) = some (signedDisp signBy w f) := by
  rcases h with h | h <;> rw [signedDispOf, h, Option.map_some]

theorem signedDispOf_of_not_displacing {mod : BitVec 2} (h : modeOf mod = .memory ∨ modeOf mod = .registerDirect)
    (signBy : DispSignBy) (w : Bool) (disp : Option Disp) : signedDispOf signBy w mod disp = none := by
  rcases h with h | h <;> rw [signedDispOf, h]

theorem displacing_of_signedDispOf {signBy : DispSignBy} {w : Bool} {mod : BitVec 2} {disp : Option Disp}
    (h : (signedDispOf signBy w mod disp).isSome) : modeOf mod = .displace8 ∨ modeOf mod = .displace16 := by
  cases hm : modeOf mod with
  | displace8 => exact .inl rfl
  | displace16 => exact .inr rfl
  | memory => rw [signedDispOf_of_not_displacing (.inl hm)] at h; cases h
  | registerDirect => rw [signedDispOf_of_not_displacing (.inr hm)] at h; cases h

/-- Settles O24: the two's complement of each width, and the mode decides whether there is one. -/
theorem signedDisplacementByParameter : Obligations.SignedDisplacementByParameter :=
  ⟨signedDisp_field, signedDisp_w_narrow, signedDisp_w_wide, fun _ _ => signedDisp_field_eq_w,
    signedDisp_w_wide_byte_nonneg, fun _ _ _ _ => displacing_of_signedDispOf,
    fun signBy _ w _ _ _ f _ _ h =>
      ⟨signedDispOf_of_displacing h signBy w f, signedDispOf_of_displacing h signBy w f⟩,
    fun signBy _ w _ _ _ disp _ _ h =>
      ⟨signedDispOf_of_not_displacing h signBy w disp, signedDispOf_of_not_displacing h signBy w disp⟩,
    fun _ _ _ _ _ _ => ⟨rfl, rfl⟩⟩

/-! ## The operands of a decoded record (R24) -/

theorem rmDescriptor_of_decoded {b : List Byte} {i : Instr} (h : decode b = .ok i)
    (hform : i.form = .rmReg ∨ i.form = .immRm) :
    i.record.mode.isSome ∧ ∃ o, i.record.rmDescriptor = some o := by
  have hfields := decode_fieldsReadFrom h
  cases i with
  | movRmReg w | movRegRm w => exact ⟨rfl, rmOperand_total w hfields⟩
  | movRmImm w => exact ⟨rfl, rmOperand_total w hfields.1⟩
  | movRegImm | movAxMem | movMemAx => rcases hform with h | h <;> cases h

/-- Settles O60: the outputs record by record, and the rm operand of what was decoded. -/
theorem derivedOutputsOfRecords : Obligations.DerivedOutputsOfRecords := by
  refine ⟨fun _ _ _ _ _ _ _ => ⟨rfl, rfl, rfl⟩, fun _ _ _ _ => ⟨rfl, rfl, rfl⟩, fun _ _ _ _ _ _ => ⟨rfl, rfl, rfl⟩,
    fun _ _ _ _ => ⟨rfl, rfl, rfl⟩, fun b i h hform => ?_⟩
  obtain ⟨hmode, o, ho⟩ := rmDescriptor_of_decoded h hform
  exact ⟨hmode, Option.isSome_iff_exists.2 ⟨o, ho⟩⟩

end Sys2Proof
end

section
/-! PROOF. What each instruction does in a running state (O43 to O46, R201), where its window is too short (O47), and
what it leaves unchanged (O48); no instruction reads the buffer (O13, R51), and no parameter steers a step (O14,
R25). -/

namespace Sys2Proof.Machine

/-! ## An instruction accepts its record or truncates (R76, R201, R202) -/

theorem exec_accepts {i : Instr} {s : State} (hr : s.Running) (hlen : i.len ≤ windowLength s s.pos) :
    exec i s = .next (accept i.record s) := by
  rw [exec_eq_retire]
  exact retire_accepts hr (by rwa [record_len])

theorem exec_truncates {i : Instr} {s : State} (hr : s.Running) (hlen : windowLength s s.pos < i.len) :
    exec i s = .next (takeError (.truncatedInput i.len (windowLength s s.pos)) s) := by
  rw [exec_eq_retire, ← record_len]
  exact retire_truncates hr (by rwa [record_len])

/-- Settles O43: both rows of form 1 accept. -/
theorem formOneRecordsAndAdvances : Obligations.FormOneRecordsAndAdvances :=
  fun w mod reg rm disp _ hr hlen =>
    ⟨exec_accepts (i := .movRmReg w mod reg rm disp) hr hlen,
      exec_accepts (i := .movRegRm w mod reg rm disp) hr hlen⟩

/-- Settles O44: form 2 accepts. -/
theorem movRegImmRecordsAndAdvances : Obligations.MovRegImmRecordsAndAdvances :=
  fun w reg imm _ hr hlen => exec_accepts (i := .movRegImm w reg imm) hr hlen

/-- Settles O45: form 3 accepts. -/
theorem movRmImmRecordsAndAdvances : Obligations.MovRmImmRecordsAndAdvances :=
  fun w mod rm disp imm _ hr hlen => exec_accepts (i := .movRmImm w mod rm disp imm) hr hlen

/-- Settles O46: both rows of form 4 accept. -/
theorem formFourRecordsAndAdvances : Obligations.FormFourRecordsAndAdvances :=
  fun w addr _ hr hlen =>
    ⟨exec_accepts (i := .movAxMem w addr) hr hlen, exec_accepts (i := .movMemAx w addr) hr hlen⟩

/-- Settles O47: every instruction retires, and `retire` truncates. -/
theorem instructionLongerThanWindowTruncates : Obligations.InstructionLongerThanWindowTruncates :=
  fun _ _ hr hlen => exec_truncates hr hlen

/-- Settles O48: the two cases of `retire` have disjoint conditions. -/
theorem instructionFrame : Obligations.InstructionFrame := by
  intro i s t h
  rw [exec_eq_retire] at h
  obtain ⟨-, ⟨hlen, rfl⟩ | ⟨hlen, rfl⟩⟩ := retire_cases h
  · rw [record_len] at hlen
    exact ⟨rfl, fun _ => rfl, rfl, rfl, rfl, fun _ => ⟨rfl, rfl⟩, fun hlt => absurd hlen (Nat.not_le.2 hlt)⟩
  · rw [record_len] at hlen
    exact ⟨rfl, fun _ => rfl, rfl, rfl, rfl, fun hle => absurd hle (Nat.not_le.2 hlen), fun _ => ⟨rfl, rfl⟩⟩

/-! ## Updates of the state that commute with a step -/

theorem mapNext_whileRunning (f : State → State) (s : State) (go : Host.Outcome State Fault Refusal) :
    mapNext f (whileRunning s go) = whileRunning s (mapNext f go) := by
  unfold whileRunning
  cases s.status <;> rfl

theorem whileRunning_congr {s t : State} (h : t.status = s.status) (go : Host.Outcome State Fault Refusal) :
    whileRunning t go = whileRunning s go := by
  rw [whileRunning, h, whileRunning]

/-- An update that touches neither the offset, the latch, the output nor `N` commutes with every record's
effect. -/
theorem retire_comm {f : State → State} {s : State} (hstatus : (f s).status = s.status)
    (hwindow : windowLength (f s) (f s).pos = windowLength s s.pos)
    (haccept : ∀ I, accept I (f s) = f (accept I s)) (herror : ∀ e, takeError e (f s) = f (takeError e s))
    (I : Record) : retire I (f s) = mapNext f (retire I s) := by
  rw [retire, retire, mapNext_whileRunning, whileRunning_congr hstatus, hwindow, haccept, herror]
  split <;> rfl

/-- Settles O13: replacing the buffer commutes with `retire`, and every instruction retires. -/
theorem operandMemoryIsNeverAccessed : Obligations.OperandMemoryIsNeverAccessed := by
  intro i s m
  rw [exec_eq_retire, exec_eq_retire]
  exact retire_comm (f := fun t => { t with buf := m }) rfl rfl (fun _ => rfl) (fun _ => rfl) i.record

/-- The state with both parameters of the run replaced. -/
def State.withParameters (signBy : DispSignBy) (verbose : Bool) (s : State) : State :=
  { s with dispSignBy := signBy, verbose := verbose }

theorem act_withParameters (signBy : DispSignBy) (verbose : Bool) (r : DecodeResult) (s : State) :
    act r (s.withParameters signBy verbose) = mapNext (State.withParameters signBy verbose) (act r s) := by
  cases r with
  | ok i =>
    rw [act, act, exec_eq_retire, exec_eq_retire]
    exact retire_comm rfl rfl (fun _ => rfl) (fun _ => rfl) i.record
  | err e => rfl
  | refusedRead => rfl

/-- The window does not depend on the parameters. -/
theorem fetchDecodeAct_withParameters (signBy : DispSignBy) (verbose : Bool) (s : State) :
    fetchDecodeAct (s.withParameters signBy verbose) =
      mapNext (State.withParameters signBy verbose) (fetchDecodeAct s) := by
  have hwindow : windowAt (s.withParameters signBy verbose) (s.withParameters signBy verbose).pos =
      windowAt s s.pos :=
    windowAt_congr (s := s) (t := s.withParameters signBy verbose) rfl rfl s.pos
  rw [fetchDecodeAct, fetchDecodeAct, hwindow]
  cases windowAt s s.pos with
  | ok b => exact act_withParameters signBy verbose (decode b) s
  | error r => rfl

/-- Settles O14: the status does not depend on the parameters either. -/
theorem parametersDoNotSteerRun : Obligations.ParametersDoNotSteerRun := by
  intro s signBy verbose
  refine ⟨?_, rfl⟩
  calc step (s.withParameters signBy verbose)
      = whileRunning s (fetchDecodeAct (s.withParameters signBy verbose)) :=
        whileRunning_congr (t := s.withParameters signBy verbose) rfl _
    _ = whileRunning s (mapNext (State.withParameters signBy verbose) (fetchDecodeAct s)) := by
        rw [fetchDecodeAct_withParameters]
    _ = mapNext (State.withParameters signBy verbose) (step s) := (mapNext_whileRunning _ s _).symm

end Sys2Proof.Machine
end

section
/-! PROOF. The invariant holds at reset (O2) and at the start of a run (O3, R250), every step keeps it (O4), and in
its states a step reads the window of the buffer (O10, R43), never out of range (O11, R46), and exists exactly while
the run is running (O7, R200). A failed run has no further step (O9, R203) and a precise report (O53, R235). -/

namespace Sys2Proof.Machine

/-! ## The bytes of a run's buffer -/

/-- The buffer holds exactly these bytes, from position 0 on. -/
def Holds (s : State) (bytes : List Byte) : Prop :=
  s.N = bytes.length ∧ ∀ a, readByte s.buf a = bytes[a]?

theorem startRun_holds (bytes : List Byte) (signBy : DispSignBy) (verbose : Bool) :
    Holds (startRun bytes signBy verbose) bytes :=
  ⟨rfl, fun a => by rw [startRun_buf, readByte_cellsFrom, if_pos (Nat.zero_le a), Nat.sub_zero]⟩

theorem supplied_of_holds {s : State} {bytes : List Byte} (h : Holds s bytes) : Supplied s := by
  obtain ⟨hN, hbytes⟩ := h
  intro a
  rw [hbytes, hN, Bool.eq_iff_iff, isSome_getElem?, decide_eq_true_iff]

theorem reset_holds : Holds State.reset [] := ⟨rfl, fun _ => rfl⟩

/-- Bytes that stand in the buffer are what a read of their range gives. -/
theorem memRead_of_bytes {s : State} {a : Nat} {l : List Byte}
    (h : ∀ j, j < l.length → a + j < s.N ∧ readByte s.buf (a + j) = l[j]?) : memRead s a l.length = .ok l := by
  obtain ⟨b, hb⟩ := memRead_total (s := s) (a := a) (k := l.length) fun j hj => by
    obtain ⟨hlt, hread⟩ := h j hj
    exact ⟨hlt, by rw [hread, List.getElem?_eq_getElem hj]; rfl⟩
  obtain ⟨hlen, hbytes⟩ := memRead_eq_ok hb
  rw [hb]
  congr 1
  refine List.ext_getElem? fun j => ?_
  rcases Nat.lt_or_ge j l.length with hj | hj
  · rw [(hbytes j hj).2, (h j hj).2]
  · rw [List.getElem?_eq_none hj, List.getElem?_eq_none (hlen ▸ hj)]

/-- The window at a position is the next six bytes of the input, or all that are left (R43). -/
theorem windowAt_of_holds {s : State} {bytes : List Byte} (h : Holds s bytes) (p : Nat) :
    windowAt s p = .ok ((bytes.drop p).take 6) := by
  obtain ⟨hN, hbytes⟩ := h
  have hlen : windowLength s p = ((bytes.drop p).take 6).length := by
    rw [windowLength, hN, List.length_take, List.length_drop]; rfl
  rw [windowAt, hlen]
  refine memRead_of_bytes fun j hj => ?_
  rw [List.length_take, List.length_drop] at hj
  refine ⟨by omega, ?_⟩
  rw [hbytes, List.getElem?_take_of_lt (by omega), List.getElem?_drop]

/-! ## The window of a running state (R43) -/

theorem windowAt_total {s : State} (hs : Supplied s) (p : Nat) : ∃ b, windowAt s p = .ok b := by
  refine memRead_total fun j hj => ?_
  have hlt : p + j < s.N := by unfold windowLength at hj; omega
  exact ⟨hlt, by rw [hs, decide_eq_true hlt]⟩

theorem windowLength_pos {s : State} (h : s.off < 8 * s.N) : 1 ≤ windowLength s s.pos := by
  unfold windowLength Config.winMax State.pos; omega

theorem window_ne_nil {s : State} {b : List Byte} (h : s.off < 8 * s.N) (hw : windowAt s s.pos = .ok b) :
    b ≠ [] := by
  have hlen := windowAt_length hw
  have hpos := windowLength_pos h
  rintro rfl
  rw [← hlen] at hpos
  cases hpos

/-- The largest of the source's window lengths that fits is `min(48, remaining)`, for two bytes on. -/
theorem find_window_bits (rem : Nat) (h : 2 ≤ rem) :
    [48, 40, 32, 24, 16].find? (fun c => c ≤ 8 * rem) = some (min 48 (8 * rem)) := by
  rcases Nat.lt_or_ge rem 6 with hlt | hge
  · interval_cases rem <;> rfl
  · have hfits : 48 ≤ 8 * rem := by omega
    rw [Nat.min_eq_left hfits]
    exact List.find?_cons_of_pos (decide_eq_true hfits)

/-- Settles O10: a supplied buffer has the whole window, and the step acts on its decode. -/
theorem stepDecodesWindowOfBuffer : Obligations.StepDecodesWindowOfBuffer := by
  refine ⟨fun s hs hr => ?_, find_window_bits⟩
  obtain ⟨b, hw⟩ := windowAt_total hs s.pos
  obtain ⟨hlen, hbytes⟩ := memRead_eq_ok hw
  exact ⟨b, hlen, List.length_pos_iff.2 (window_ne_nil hr.2 hw), fun j hj => (hbytes j (hlen ▸ hj)).2,
    step_of_window hr hw⟩

/-! ## When a step exists (R200) -/

theorem step_of_failed {s : State} (h : s.Failed) : step s = .fault .runFailed := whileRunning_of_failed h _

theorem step_of_finished {s : State} (h : s.halt = none ∧ 8 * s.N ≤ s.off) : step s = .fault .runFinished :=
  whileRunning_of_finished h _

theorem step_of_error {s : State} {b : List Byte} {e : DecodeError} (hr : s.Running)
    (hw : windowAt s s.pos = .ok b) (hd : decode b = .err e) : step s = .next (takeError e s) := by
  rw [step_of_window hr hw, hd, act]

theorem step_accepts {s : State} {b : List Byte} {i : Instr} (hr : s.Running)
    (hw : windowAt s s.pos = .ok b) (hd : decode b = .ok i) : step s = .next (accept i.record s) :=
  (step_of_decoded hr hw hd).trans (exec_of_decoded hr hw hd)

/-- In a running state with its buffer supplied, the decode gives an instruction or an error (D4). -/
theorem step_total {s : State} (hs : Supplied s) (hr : s.Running) : ∃ t, step s = .next t := by
  obtain ⟨b, hw⟩ := windowAt_total hs s.pos
  cases hd : decode b with
  | ok i => exact ⟨_, step_accepts hr hw hd⟩
  | err e => exact ⟨_, step_of_error hr hw hd⟩
  | refusedRead => exact absurd hd (decode_ne_refusedRead (window_ne_nil hr.2 hw))

/-- Settles O7: the two end states fault, and a running state goes on. -/
theorem stepExistsOnlyWhileRunning : Obligations.StepExistsOnlyWhileRunning := fun _ =>
  ⟨step_of_failed, fun hhalt hoff => step_of_finished ⟨hhalt, hoff.ge⟩, fun ⟨_, h⟩ => (step_cases h).1,
    fun hinv hhalt hoff => step_total hinv.supplied ⟨hhalt, hoff⟩⟩

/-- Settles O6: the step acts on the error of the decode. -/
theorem stepLatchesDecodeError : Obligations.StepLatchesDecodeError := fun _ _ hr hw =>
  ⟨fun _ _ hd => step_of_error hr hw hd, fun _ hd => step_of_error hr hw hd⟩

/-- Settles O9: a failed state has no step, and the step that fails is `takeError`. -/
theorem failedRunNeverResumes : Obligations.FailedRunNeverResumes := by
  refine ⟨fun s k h => ?_, fun s t hstep hfailed => ?_⟩
  · exact (run_succ s k).trans (by rw [step_of_failed h])
  · obtain ⟨⟨hhalt, -⟩, b, -, ⟨i, -, rfl⟩ | ⟨e, -, rfl⟩⟩ := step_accepts_or_latches hstep
    · exact absurd hhalt hfailed
    · exact ⟨rfl, rfl, hhalt⟩

/-! ## Reads out of range (R46) -/

theorem memRead_past_end {s : State} {a k : Nat} {b : List Byte} (hk : 0 < k) (h : s.N < a + k) :
    memRead s a k ≠ .ok b := by
  intro hread
  obtain ⟨-, hbytes⟩ := memRead_eq_ok hread
  have hlast := (hbytes (k - 1) (by omega)).1
  omega

/-- A field past the last byte lacks its last bit. -/
theorem cursorField_past_end {b : List Byte} {o n : Nat} (hn : 0 < n) (h : 8 * b.length < o + n) :
    cursorField b o n = none := by
  obtain ⟨n, rfl⟩ := Nat.exists_eq_add_one.2 hn
  have hlast : streamBit b (o + n) = none := by
    rw [streamBit, List.getElem?_eq_none (by omega), Option.map_none]
  rw [cursorField, hlast]
  cases cursorField b o n <;> rfl

theorem step_ne_refused {s : State} (hs : Supplied s) (r : Refusal) : step s ≠ .refused r := by
  cases hstatus : s.status with
  | running =>
    obtain ⟨t, ht⟩ := step_total hs (status_running.1 hstatus)
    rw [ht]; exact nofun
  | finished => rw [step_of_finished (status_finished.1 hstatus)]; exact nofun
  | failed => rw [step_of_failed (status_failed.1 hstatus)]; exact nofun

/-- Settles O11: each read is refused past its end, and the step's window lies within the buffer. -/
theorem outOfRangeReadIsRefusedAndUnreachable : Obligations.OutOfRangeReadIsRefusedAndUnreachable :=
  ⟨fun _ _ => fetchByte_out_of_range, fun _ _ _ _ => memRead_past_end, fun _ _ _ => cursorField_past_end,
    fun _ => decode_ne_refusedRead, fun _ r hinv => step_ne_refused hinv.supplied r⟩

/-! ## The invariant -/

/-- A state whose registers have their reset values meets the invariant, whatever bytes its buffer holds. -/
theorem inv_of_start {s : State} {bytes : List Byte} (hwf : Memory.wf s.buf) (h : Holds s bytes)
    (hoff : s.off = 0) (hhalt : s.halt = none) (hout : s.out = []) : Inv s where
  canonical := hwf
  supplied := supplied_of_holds h
  aligned := by rw [hoff]
  bounded := by rw [hoff]; exact Nat.zero_le _
  chained := by rw [hoff, hout]; rfl
  faithful := by unfold Faithful; rw [hout]; exact nofun
  latched := by unfold LatchPrecise; rw [hhalt]; exact nofun

theorem startRun_inv (bytes : List Byte) (signBy : DispSignBy) (verbose : Bool) :
    Inv (startRun bytes signBy verbose) :=
  inv_of_start (cellsFrom_wf 0 bytes) (startRun_holds bytes signBy verbose) rfl rfl rfl

/-- Settles O2: reset is the start of the run on the empty input. -/
theorem resetMeetsInvariant : Obligations.ResetMeetsInvariant :=
  inv_of_start reset_buf_wf reset_holds rfl rfl rfl

/-- Settles O1: the reset values, and the run on the empty input has finished. -/
theorem resetIsFinishedEmptyRun : Obligations.ResetIsFinishedEmptyRun :=
  ⟨rfl, rfl, rfl, rfl, rfl, ⟨rfl, rfl⟩, step_of_finished ⟨rfl, Nat.le_refl 0⟩, rfl⟩

/-- Settles O3: the fields of `startRun`, and the bytes its buffer holds. -/
theorem startRunSuppliesWholeBuffer : Obligations.StartRunSuppliesWholeBuffer := fun bytes signBy verbose =>
  ⟨rfl, rfl, rfl, rfl, rfl, rfl, (startRun_holds bytes signBy verbose).2, startRun_inv bytes signBy verbose⟩

/-- A record at the end of a gapless output leaves it gapless. -/
theorem chained_append {p q : Nat} {out : List (Nat × Record)} (I : Record) (h : Chained p out q) :
    Chained p (out ++ [(q, I)]) (q + I.len) := by
  induction out generalizing p with
  | nil => cases h; exact ⟨rfl, rfl⟩
  | cons e out ih =>
    obtain ⟨hhead, htail⟩ := h
    exact ⟨hhead, ih htail⟩

/-- A decoded instruction lies within the buffer. -/
theorem decoded_fits {s : State} {b : List Byte} {i : Instr} (hw : windowAt s s.pos = .ok b)
    (hd : decode b = .ok i) : i.len ≤ s.N - s.pos := by
  have hlen := decode_len hd
  rw [windowAt_length hw] at hlen
  exact hlen.trans (Nat.min_le_right _ _)

theorem accept_keeps_inv {s : State} {b : List Byte} {i : Instr} (hinv : Inv s) (hr : s.Running)
    (hw : windowAt s s.pos = .ok b) (hd : decode b = .ok i) : Inv (accept i.record s) where
  canonical := hinv.canonical
  supplied := hinv.supplied
  aligned := by
    have haligned := hinv.aligned
    rw [accept_off]; omega
  bounded := by
    have haligned := hinv.aligned
    have hoff := hr.2
    have hfits := decoded_fits hw hd
    rw [State.pos] at hfits
    rw [accept_off, accept_N, record_len]; omega
  chained := by
    have hpos : (accept i.record s).off / 8 = s.pos + i.record.len := accept_pos i.record s
    rw [hpos, accept_out]
    exact chained_append i.record hinv.chained
  faithful := by
    intro e he
    rw [windowAt_accept]
    rw [accept_out] at he
    rcases List.mem_append.1 he with hold | hnew
    · exact hinv.faithful e hold
    · obtain rfl := List.mem_singleton.1 hnew
      exact ⟨b, i, hw, hd, rfl⟩
  latched := by
    intro E hE
    rw [accept_halt, hr.1] at hE
    cases hE

theorem takeError_keeps_inv {s : State} {b : List Byte} {e : DecodeError} (hinv : Inv s) (hr : s.Running)
    (hw : windowAt s s.pos = .ok b) (hd : decode b = .err e) : Inv (takeError e s) where
  canonical := hinv.canonical
  supplied := hinv.supplied
  aligned := hinv.aligned
  bounded := hinv.bounded
  chained := hinv.chained
  faithful := by
    intro entry hmem
    rw [windowAt_takeError]
    exact hinv.faithful entry hmem
  latched := by
    intro E hE
    rw [windowAt_takeError]
    cases hE
    exact ⟨hr.2, rfl, b, e, hw, hd, rfl, rfl⟩

/-- Settles O4: a step accepts the decode's record or latches its error, and both keep the invariant. -/
theorem stepKeepsInvariant : Obligations.StepKeepsInvariant := by
  intro s t hinv hstep
  obtain ⟨hr, b, hw, ⟨i, hd, rfl⟩ | ⟨e, hd, rfl⟩⟩ := step_accepts_or_latches hstep
  · exact accept_keeps_inv hinv hr hw hd
  · exact takeError_keeps_inv hinv hr hw hd

/-! ## The failure report (R235) -/

/-- Settles O53: the latch is precise, and a decode's error names the first byte if any. -/
theorem failureReportNamesKindOffsetRaw : Obligations.FailureReportNamesKindOffsetRaw := by
  intro s hinv hfailed
  obtain ⟨⟨kind, pos, raw⟩, hE⟩ := Option.ne_none_iff_exists'.1 hfailed
  obtain ⟨hoff, hpos, b, e, hw, hd, hkind, hraw⟩ := hinv.latched _ hE
  obtain ⟨b0, tail, rfl⟩ := List.exists_cons_of_ne_nil (window_ne_nil hoff hw)
  refine ⟨b0 :: tail, b0, hw, rfl, ?_⟩
  rw [State.failureReport, hE]
  cases hpos
  cases hkind
  cases hraw
  cases e with
  | truncatedInput need avail => exact .inl ⟨need, avail, hd, rfl⟩
  | unsupportedOpcode raw =>
    obtain ⟨-, -, -, -, hunsupported⟩ := decodeErrorPriority b0 tail
    obtain ⟨-, rfl, -⟩ := hunsupported raw hd
    exact .inr ⟨hd, rfl⟩

/-! ## A placed word (log 21) -/

@[simp] theorem tableBytes_length (nbits w : Nat) : (tableBytes nbits w).length = 6 := by
  rw [tableBytes, List.length_map, List.length_range]; rfl

/-- The window after placing six bytes at the fetch position is those six bytes. -/
theorem windowAt_placeAtFetch {bytes : List Byte} (hlen : bytes.length = 6) (s : State) :
    windowAt (placeAtFetch bytes s) s.pos = .ok bytes := by
  have hwindow : windowLength (placeAtFetch bytes s) s.pos = bytes.length := by
    rw [windowLength, placeAtFetch_N, hlen, Config.winMax]; omega
  rw [windowAt, hwindow]
  refine memRead_of_bytes fun j hj => ⟨by rw [placeAtFetch_N]; omega, ?_⟩
  rw [placeAtFetch_buf, readByte_writeBytes, if_pos (by omega), Nat.add_sub_cancel_left]

theorem placeAtFetch_running {bytes : List Byte} (hlen : bytes.length = 6) (s : State) :
    (placeAtFetch bytes s).Running := by
  refine ⟨placeAtFetch_halt bytes s, ?_⟩
  rw [placeAtFetch_off, placeAtFetch_N, hlen, State.pos]; omega

theorem decode_of_decodeTableWord {nbits w : Nat} {i : Instr} (h : decodeTableWord nbits w = some i) :
    decode (tableBytes nbits w) = .ok i := by
  unfold decodeTableWord at h
  cases hd : decode (tableBytes nbits w) with
  | ok i' => rw [hd] at h; cases h; rfl
  | err e => rw [hd] at h; cases h
  | refusedRead => rw [hd] at h; cases h

/-- Settles O49: the window of the next step is the placed word. -/
theorem fetchWordIsRunByNextStep : Obligations.FetchWordIsRunByNextStep := by
  intro s nbits w i hdec s'
  have hlen := tableBytes_length nbits w
  have hr : s'.Running := placeAtFetch_running hlen s
  have hw : windowAt s' s'.pos = .ok (tableBytes nbits w) := windowAt_placeAtFetch hlen s
  have hd := decode_of_decodeTableWord hdec
  refine ⟨step_of_decoded hr hw hd, ⟨_, exec_of_decoded hr hw hd, rfl⟩, rfl, rfl, rfl, rfl, fun a ha => ?_⟩
  have hoff : s.pos = s.off / 8 := rfl
  exact (readByte_writeBytes s.buf s.pos (tableBytes nbits w) a).trans (if_neg (by omega))

end Sys2Proof.Machine
end

section
/-! PROOF. Every run makes progress and ends (O50, R204), a run computes the linear sweep of its input (O51, R201,
R202), and the run on an assembled list outputs that list (O52, R255). -/

namespace Sys2Proof.Machine

/-! ## Runs, step by step -/

/-- A step and a run from its next state are a run. -/
theorem run_of_step {s s' : State} {k : Nat} {r : Host.Outcome State Fault Refusal} (hstep : step s = .next s')
    (hrun : Host.Core.run Sys2Proof.core k s' = r) : Host.Core.run Sys2Proof.core (k + 1) s = r :=
  (run_succ s k).trans (by rw [hstep]; exact hrun)

/-- In a state with `off ≤ 8·N` and no latched error the run is running or finished (R33). -/
theorem running_or_finished {s : State} (hinv : Inv s) (hhalt : s.halt = none) : s.Running ∨ s.Finished :=
  (Nat.lt_or_eq_of_le hinv.bounded).imp (⟨hhalt, ·⟩) (⟨hhalt, ·⟩)

theorem takeError_ended (e : DecodeError) (s : State) : Ended (takeError e s) := .inr nofun

/-! ## Progress (R204) -/

/-- A step without error goes on by the decoded instruction's two to six bytes. -/
theorem step_advances {s t : State} (hstep : step s = .next t) (hhalt : t.halt = none) :
    s.off + 16 ≤ t.off ∧ t.off ≤ s.off + 48 := by
  obtain ⟨-, b, -, ⟨i, hd, rfl⟩ | ⟨e, -, rfl⟩⟩ := step_accepts_or_latches hstep
  · obtain ⟨hmin, hmax⟩ := len_bounds (decode_wellFormed hd)
    rw [accept_off, record_len]; omega
  · cases hhalt

/-- A run has ended, or ends with its next step, or goes on by at least two bytes. -/
theorem ends_or_advances {s : State} (hinv : Inv s) :
    Ended s ∨ (∃ t, step s = .next t ∧ Ended t) ∨
      ∃ t, step s = .next t ∧ Inv t ∧ t.N = s.N ∧ s.off + 16 ≤ t.off := by
  by_cases hhalt : s.halt = none
  · obtain hr | hf := running_or_finished hinv hhalt
    · obtain ⟨t, hstep⟩ := step_total hinv.supplied hr
      by_cases hhalt' : t.halt = none
      · exact .inr (.inr ⟨t, hstep, stepKeepsInvariant s t hinv hstep, (step_keeps_buffer hstep).2,
          (step_advances hstep hhalt').1⟩)
      · exact .inr (.inl ⟨t, hstep, .inr hhalt'⟩)
    · exact .inl (.inl hf)
  · exact .inl (.inr hhalt)

/-- With at most `2·m + 1` bytes left (counted in bits), the run ends within `m + 1` steps. -/
theorem run_ends {s : State} (hinv : Inv s) {m : Nat} (hm : 8 * s.N ≤ s.off + 16 * m + 8) :
    ∃ k t, k ≤ m + 1 ∧ Host.Core.run Sys2Proof.core k s = .next t ∧ Ended t := by
  induction m generalizing s with
  | zero =>
    obtain hended | ⟨t, hstep, hended⟩ | ⟨t, -, hinv', hN, hoff⟩ := ends_or_advances hinv
    · exact ⟨0, s, Nat.zero_le _, rfl, hended⟩
    · exact ⟨1, t, Nat.le_refl _, run_of_step hstep rfl, hended⟩
    · have hbounded := hinv'.bounded
      omega
  | succ m ih =>
    obtain hended | ⟨t, hstep, hended⟩ | ⟨t, hstep, hinv', hN, hoff⟩ := ends_or_advances hinv
    · exact ⟨0, s, Nat.zero_le _, rfl, hended⟩
    · exact ⟨1, t, Nat.le_add_left _ _, run_of_step hstep rfl, hended⟩
    · obtain ⟨k, u, hk, hrun, hended⟩ := ih hinv' (by omega)
      exact ⟨k + 1, u, Nat.succ_le_succ hk, run_of_step hstep hrun, hended⟩

/-- Settles O50: a step without error leaves at least two bytes fewer. -/
theorem everyRunEnds : Obligations.EveryRunEnds := by
  refine ⟨fun s t hinv hstep hhalt => ?_, fun s hinv => run_ends hinv (by omega)⟩
  obtain ⟨hmin, hmax⟩ := step_advances hstep hhalt
  have hinv' := stepKeepsInvariant s t hinv hstep
  exact ⟨hmin, hmax, hinv'.bounded, hinv'.aligned⟩

/-! ## The linear sweep (R201, R202, R205) -/

@[simp] theorem sweep_nil (fuel pos : Nat) : sweep fuel pos [] = ([], none) := by
  cases fuel <;> rfl

theorem sweep_of_ok {bytes : List Byte} {i : Instr} (hd : decode (bytes.take 6) = .ok i) (fuel pos : Nat) :
    sweep (fuel + 1) pos bytes =
      ((pos, i.record) :: (sweep fuel (pos + i.len) (bytes.drop i.len)).1,
        (sweep fuel (pos + i.len) (bytes.drop i.len)).2) := by
  rw [sweep, hd]

theorem sweep_of_err {bytes : List Byte} {e : DecodeError} (hd : decode (bytes.take 6) = .err e) (fuel pos : Nat) :
    sweep (fuel + 1) pos bytes = ([], some ⟨errorKind e, pos, errorRaw e⟩) := by
  rw [sweep, hd]

/-- The bytes of a finished run are used up. -/
theorem drop_of_finished {s : State} {bytes : List Byte} (h : Holds s bytes) (hf : s.Finished) :
    bytes.drop s.pos = [] := by
  obtain ⟨hN, -⟩ := h
  obtain ⟨-, hoff⟩ := hf
  rw [List.drop_eq_nil_iff, ← hN, State.pos, hoff]; omega

/-- From a state without error, whose output stands for the bytes before its position, the run adds the sweep of
the bytes from there on. -/
theorem run_adds_sweep {bytes : List Byte} {fuel : Nat} {s : State} (hinv : Inv s) (hbytes : Holds s bytes)
    (hhalt : s.halt = none) (hfuel : s.N - s.pos ≤ fuel) :
    ∃ k t, Host.Core.run Sys2Proof.core k s = .next t ∧ Ended t ∧
      t.out = s.out ++ (sweep fuel s.pos (bytes.drop s.pos)).1 ∧
      t.halt = (sweep fuel s.pos (bytes.drop s.pos)).2 := by
  induction fuel generalizing s with
  | zero =>
    obtain hr | hf := running_or_finished hinv hhalt
    · have hoff := hr.2
      rw [State.pos] at hfuel; omega
    · exact ⟨0, s, rfl, .inl hf, (List.append_nil _).symm, hhalt⟩
  | succ fuel ih =>
    obtain hr | hf := running_or_finished hinv hhalt
    · have hw := windowAt_of_holds hbytes s.pos
      cases hd : decode ((bytes.drop s.pos).take 6) with
      | ok i =>
        obtain ⟨hmin, -⟩ := len_bounds (decode_wellFormed hd)
        have hpos := accept_pos i.record s
        rw [record_len] at hpos
        obtain ⟨k, t, hrun, hended, hout, hlatch⟩ :=
          ih (accept_keeps_inv hinv hr hw hd) hbytes hhalt (by rw [accept_N, hpos]; omega)
        rw [hpos, ← List.drop_drop] at hout hlatch
        rw [sweep_of_ok hd]
        exact ⟨k + 1, t, run_of_step (step_accepts hr hw hd) hrun, hended, by
          rw [hout, accept_out, List.append_assoc, List.singleton_append], hlatch⟩
      | err e =>
        rw [sweep_of_err hd]
        exact ⟨1, _, run_of_step (step_of_error hr hw hd) rfl, takeError_ended e s, (List.append_nil _).symm, rfl⟩
      | refusedRead =>
        exact absurd hd (decode_ne_refusedRead (window_ne_nil hr.2 hw))
    · rw [drop_of_finished hbytes hf, sweep_nil]
      exact ⟨0, s, rfl, .inl hf, (List.append_nil _).symm, hhalt⟩

@[simp] theorem startRun_pos (bytes : List Byte) (signBy : DispSignBy) (verbose : Bool) :
    (startRun bytes signBy verbose).pos = 0 := Nat.zero_div 8

/-- Settles O51: the start of the run stands at byte 0 with an empty output. -/
theorem runComputesLinearSweep : Obligations.RunComputesLinearSweep := by
  intro bytes signBy verbose
  simpa only [startRun_pos, startRun_out, List.drop_zero, List.nil_append] using
    run_adds_sweep (fuel := bytes.length) (startRun_inv bytes signBy verbose) (startRun_holds bytes signBy verbose)
      rfl (Nat.sub_le _ _)

/-! ## Assembled input (R255) -/

/-- From a position where the encodings of a list of instructions stand, as many steps list them and finish. -/
theorem run_lists_instructions {bytes : List Byte} {is : List Instr} {s : State} (hinv : Inv s)
    (hbytes : Holds s bytes) (hhalt : s.halt = none) (hrest : bytes.drop s.pos = is.flatMap encode)
    (hwf : ∀ i ∈ is, i.wellFormed = true) :
    ∃ t, Host.Core.run Sys2Proof.core is.length s = .next t ∧ t.Finished ∧ t.out = s.out ++ layOut s.pos is := by
  induction is generalizing s with
  | nil =>
    have hend : bytes.length ≤ s.pos := List.drop_eq_nil_iff.1 hrest
    have hoff : s.off = 8 * s.N := by
      have hbounded := hinv.bounded
      rw [← hbytes.1, State.pos] at hend
      omega
    exact ⟨s, rfl, ⟨hhalt, hoff⟩, (List.append_nil _).symm⟩
  | cons i is ih =>
    obtain ⟨hi, his⟩ := List.forall_mem_cons.1 hwf
    obtain ⟨hmin, hmax⟩ := len_bounds hi
    rw [List.flatMap_cons] at hrest
    have hlen := encode_length hi
    have hr : s.Running := by
      refine ⟨hhalt, ?_⟩
      have hleft := congrArg List.length hrest
      rw [List.length_drop, List.length_append, hlen, ← hbytes.1, State.pos] at hleft
      omega
    have hw := windowAt_of_holds hbytes s.pos
    rw [hrest, List.take_append, List.take_of_length_le (by rw [hlen]; exact hmax)] at hw
    have hd (extra : List Byte) := decodeInvertsEncode i extra hi
    have hpos := accept_pos i.record s
    rw [record_len] at hpos
    have hrest' : bytes.drop (accept i.record s).pos = is.flatMap encode := by
      rw [hpos, ← List.drop_drop, hrest, ← hlen, List.drop_left]
    obtain ⟨t, hrun, hfinished, hout⟩ := ih (accept_keeps_inv hinv hr hw (hd _)) hbytes hhalt hrest' his
    refine ⟨t, run_of_step (step_accepts hr hw (hd _)) hrun, hfinished, ?_⟩
    rw [hout, accept_out, hpos, List.append_assoc, List.singleton_append, layOut]

/-- Settles O52: the input of the run is the list's encodings from byte 0 on. -/
theorem assembledRunListsItsInstructions : Obligations.AssembledRunListsItsInstructions := by
  intro is signBy verbose hwf
  simpa only [startRun_pos, startRun_out, List.nil_append] using
    run_lists_instructions (startRun_inv _ signBy verbose) (startRun_holds _ signBy verbose) rfl
      (by rw [startRun_pos, List.drop_zero]) hwf

end Sys2Proof.Machine
end

section
/-! PROOF. Addresses and size keywords (O57, R183, R186, R187), and the text of a run: a header and one line per
record (O58, R180, R189), each ended by a newline (O59, D16). -/

namespace Sys2Proof
open Machine

/-! ## Lines of one record -/

@[simp] theorem operandText_direct (signBy : DispSignBy) (w : Bool) (a : Nat) :
    operandText signBy w (.direct a) = "[" ++ toString a ++ "]" := rfl

/-- The line of form 3 has its size keyword in front of the literal. -/
theorem recordText_movRmImm (signBy : DispSignBy) {w : Bool} {mod : BitVec 2} {rm : BitVec 3}
    {disp : Option Disp} (imm : Imm) {dest : Operand} (h : rmOperand mod rm w disp = some dest) :
    recordText signBy (recordMovRmImm w mod rm disp imm) =
      some ("mov " ++ operandText signBy w dest ++ ", " ++ (if w then "word" else "byte") ++ " " ++
        toString (twosComplement imm)) := by
  have hkeyword : sourceKeyword (recordMovRmImm w mod rm disp imm) = (if w then "word" else "byte") ++ " " := rfl
  have hwide : (recordMovRmImm w mod rm disp imm).wide = w := rfl
  rw [recordText_of_operands (I := recordMovRmImm w mod rm disp imm) signBy h rfl, hkeyword, hwide, operandText_imm,
    ← String.append_assoc]

theorem recordText_movAxMem (signBy : DispSignBy) (w : Bool) (addr : Addr) :
    recordText signBy (recordMovAxMem w addr) = some ("mov ax, [" ++ toString addr.raw ++ "]") := by
  have hhead : "mov " ++ regText .ax ++ ", " ++ sourceKeyword (recordMovAxMem w addr) ++ "[" = "mov ax, [" := rfl
  rw [recordText_of_operands signBy (dest := .reg .ax) (src := .direct addr.raw) rfl rfl, operandText_reg,
    operandText_direct, ← String.append_assoc, ← String.append_assoc, hhead]

theorem recordText_movMemAx (signBy : DispSignBy) (w : Bool) (addr : Addr) :
    recordText signBy (recordMovMemAx w addr) = some ("mov [" ++ toString addr.raw ++ "], ax") := by
  have hhead : "mov " ++ "[" = "mov [" := rfl
  have htail : "]" ++ ", " ++ sourceKeyword (recordMovMemAx w addr) ++ regText .ax = "], ax" := rfl
  rw [recordText_of_operands signBy (dest := .direct addr.raw) (src := .reg .ax) rfl rfl, operandText_reg,
    operandText_direct, ← hhead, ← htail]
  simp only [String.append_assoc]

/-- Settles O57: the spelling of an address, and the lines of forms 3 and 4. -/
theorem addressAndKeywordText : Obligations.AddressAndKeywordText :=
  ⟨operandText_direct, fun signBy _ _ _ _ imm _ => recordText_movRmImm signBy imm, recordText_movAxMem,
    recordText_movMemAx⟩

/-- The lines of form 1: no keyword, and the operands in the order of the direction flag. -/
theorem recordText_formOne (signBy : DispSignBy) {w : Bool} {mod : BitVec 2} (reg : BitVec 3) {rm : BitVec 3}
    {disp : Option Disp} {o : Operand} (h : rmOperand mod rm w disp = some o) :
    recordText signBy (recordMovRmReg w mod reg rm disp) =
        some ("mov " ++ operandText signBy w o ++ ", " ++ regText (regName reg w)) ∧
      recordText signBy (recordMovRegRm w mod reg rm disp) =
        some ("mov " ++ regText (regName reg w) ++ ", " ++ operandText signBy w o) := by
  constructor
  · have hkeyword : sourceKeyword (recordMovRmReg w mod reg rm disp) = "" := rfl
    have hwide : (recordMovRmReg w mod reg rm disp).wide = w := rfl
    rw [recordText_of_operands (I := recordMovRmReg w mod reg rm disp) signBy h rfl, hkeyword, hwide,
      operandText_reg, String.append_empty]
  · have hkeyword : sourceKeyword (recordMovRegRm w mod reg rm disp) = "" := rfl
    have hwide : (recordMovRegRm w mod reg rm disp).wide = w := rfl
    rw [recordText_of_operands (I := recordMovRegRm w mod reg rm disp) signBy rfl h, hkeyword, hwide,
      operandText_reg, String.append_empty]

/-- A decoded instruction has both operands. -/
theorem operands_of_decoded {b : List Byte} {i : Instr} (h : decode b = .ok i) :
    ∃ dest src, i.record.dest = some dest ∧ i.record.src = some src := by
  have hfields := decode_fieldsReadFrom h
  cases i with
  | movRmReg w mod reg rm disp =>
    obtain ⟨o, ho⟩ := rmOperand_total w hfields
    exact ⟨o, _, ho, rfl⟩
  | movRegRm w mod reg rm disp =>
    obtain ⟨o, ho⟩ := rmOperand_total w hfields
    exact ⟨_, o, rfl, ho⟩
  | movRmImm w mod rm disp imm =>
    obtain ⟨o, ho⟩ := rmOperand_total w hfields.1
    exact ⟨o, _, ho, rfl⟩
  | movRegImm | movAxMem | movMemAx => exact ⟨_, _, rfl, rfl⟩

end Sys2Proof

namespace Sys2Proof.Machine

/-! ## The lines of a run (R180, R189) -/

/-- Every record of a state that meets the invariant was decoded, so it has a line. -/
theorem linesText_of_inv {s : State} (hinv : Inv s) :
    ∃ ls, linesText s.dispSignBy s.out = some ls ∧ ls.length = s.out.length := by
  refine linesText_total fun e he => ?_
  obtain ⟨b, i, -, hd, hrecord⟩ := hinv.faithful e he
  obtain ⟨dest, src, hdest, hsrc⟩ := operands_of_decoded hd
  rw [hrecord, recordText_of_operands s.dispSignBy hdest hsrc, Option.isSome_some]

theorem text_of_lines {s : State} {ls : List String} (h : linesText s.dispSignBy s.out = some ls) :
    s.text = some (headerLine :: ls) := by
  rw [State.text, h, Option.map_some]

theorem text_takeError (e : DecodeError) (s : State) : (takeError e s).text = s.text := rfl

/-- An accepted record adds its line. -/
theorem text_accept {s : State} {ls : List String} {I : Record} {l : String}
    (h : linesText s.dispSignBy s.out = some ls) (hl : recordText s.dispSignBy I = some l) :
    (accept I s).text = some (headerLine :: ls ++ [l]) :=
  text_of_lines (linesText_append s.pos h hl)

/-- Settles O58: a step accepts a decoded record, which has a line, or latches an error, which has none. -/
theorem textGrowsByOneLinePerRecord : Obligations.TextGrowsByOneLinePerRecord := by
  refine ⟨fun s hinv => ?_, fun s t hinv hstep => ?_, fun signBy _ _ reg _ _ _ => recordText_formOne signBy reg,
    operandText_reg⟩
  · obtain ⟨ls, hls, hlen⟩ := linesText_of_inv hinv
    exact ⟨ls, text_of_lines hls, hlen⟩
  · obtain ⟨⟨hhalt, -⟩, b, -, ⟨i, hd, rfl⟩ | ⟨e, -, rfl⟩⟩ := step_accepts_or_latches hstep
    · refine ⟨fun hfailed => absurd hhalt hfailed, fun _ => ?_⟩
      obtain ⟨ls, hls, -⟩ := linesText_of_inv hinv
      obtain ⟨dest, src, hdest, hsrc⟩ := operands_of_decoded hd
      exact ⟨i.record, _, dest, src, rfl, text_of_lines hls, hdest, hsrc,
        text_accept hls (recordText_of_operands s.dispSignBy hdest hsrc)⟩
    · exact ⟨fun _ => text_takeError e s, nofun⟩

/-! ## The characters of a run (D16) -/

theorem textStream_of_text {s : State} {ls : List String} (h : s.text = some ls) :
    s.textStream = some (terminateLines ls) := by
  rw [State.textStream, h, Option.map_some]

/-- Settles O59: the characters follow the lines, whose growth is O58. -/
theorem textStreamTerminatesEachLine : Obligations.TextStreamTerminatesEachLine := by
  refine ⟨rfl, fun s ls h => ⟨_, textStream_of_text h, terminateLines_toList ls⟩, fun s t hinv hstep => ?_⟩
  obtain ⟨-, hgrows, -⟩ := textGrowsByOneLinePerRecord
  obtain ⟨hfails, haccepts⟩ := hgrows s t hinv hstep
  refine ⟨fun hfailed => by rw [State.textStream, hfails hfailed, State.textStream], fun hhalt => ?_⟩
  obtain ⟨I, ls, dest, src, hout, htext, hdest, hsrc, htext'⟩ := haccepts hhalt
  refine ⟨I, _, dest, src, hout, textStream_of_text htext, hdest, hsrc, ?_⟩
  rw [textStream_of_text htext', terminateLines_append, terminateLines_cons, terminateLines_nil, String.append_empty,
    lineTerminator]

end Sys2Proof.Machine
end
